-- ==== Sys2Proof/Word.lean ====
section
/-! DEFINITION. The word types of the block (spec 00_scope.md R6, R7, R9; 30_encoding.md R40).
Bit 0 is the least significant bit of each (R9), which is BitVec's own numbering. -/

namespace Sys2Proof

/-- A byte: the register `ctrl`, the write data and `vram_inc` (R6, R7). -/
abbrev Byte := BitVec 8

/-- The command word `rst : we : din` of R40. -/
abbrev CommandWord := BitVec 10

/-- A pattern table base address (R7). -/
abbrev PatternAddr := BitVec 16

end Sys2Proof
end

