-- ==== Sys2Proof/Syntax.lean ====
section
/-! DEFINITION. The seven rows of spec/opcode_table.json: three commands and four output queries. -/

namespace Sys2Proof

/-- One constructor per row of the opcode table. The queries are output ports, not commands (R43);
as instructions they stand for one read of the port by its consumer (log entry 1). -/
inductive Instr where
  /-- RESET (source `create`), R48. -/
  | reset
  /-- WRITE d (source `update`), R49; `d` is the written byte, unmodified (R41). -/
  | write (d : Byte)
  /-- IDLE: an edge with no request, R50. -/
  | idle
  /-- The read of port `vram_inc`, R53. -/
  | vramAddressIncrement
  /-- The read of port `nmi_en`, R54. -/
  | shouldGenerateVblankNmi
  /-- The read of port `bg_pat_addr`, R55. -/
  | backgroundPatternAddress
  /-- The read of port `spr_pat_addr`, R56. -/
  | spritePatternAddress
deriving DecidableEq, Repr

end Sys2Proof
end

