-- ==== Sys2Proof/AsmSyntax.lean ====
section
/-! DEFINITION. The named fields of `ctrl` (spec 10_state.md section 2), the four output ports
(10_state.md R25) and the lines of the assembler syntax (30_encoding.md R46, R47). -/

namespace Sys2Proof

/-- The eight one-bit fields of `ctrl`, under the source's names (R16 to R23). -/
inductive Field where
  | nameTable1
  | nameTable2
  | vramAddIncrement
  | spritePatternAddr
  | bgPatternAddr
  | spriteSize
  | masterSlaveSelect
  | generateNmi
deriving DecidableEq, Repr

/-- The four output ports (R25). The block has no other output (R26). -/
inductive OutputPort where
  | vramInc
  | nmiEn
  | bgPatAddr
  | sprPatAddr
deriving DecidableEq, Repr

/-- One line of a test program (R46, R47). Numbers are as written, before any range check. -/
inductive AsmLine where
  /-- `RESET`. -/
  | reset
  /-- `WRITE imm8`. -/
  | write (imm : Nat)
  /-- `IDLE`. -/
  | idle
  /-- `.word w`: a raw command word. -/
  | word (w : Nat)
  /-- The pseudo-instruction `IDLE n` (R47). -/
  | idleN (n : Nat)
  /-- The pseudo-instruction `WRITEF f1|f2|...` (R47). -/
  | writef (fs : List Field)
  /-- `EXPECT port == value`: an assertion, no command (R46). -/
  | expect (port : OutputPort) (value : Nat)
  /-- An empty line or a comment (R46). -/
  | blank
deriving DecidableEq, Repr

end Sys2Proof
end

