-- ==== Sys2Proof/WellFormed.lean ====
section
/-! DEFINITION. Well-formedness. The block validates nothing (spec 00_scope.md R5, 30_encoding.md R44),
so no instruction is ill-formed once its operand is a byte; the checks that refuse something are the
assembler's (R46, R47). -/

namespace Sys2Proof

/-- No check refuses an instruction: every byte is a legal WRITE operand and no command or query has
any other operand (R5, R41, R44). -/
def Instr.wellFormed : Instr → Bool
  | .reset => true
  | .write _ => true
  | .idle => true
  | .vramAddressIncrement => true
  | .shouldGenerateVblankNmi => true
  | .backgroundPatternAddress => true
  | .spritePatternAddress => true

/-- The ranges the assembler insists on: `imm8` in 0..255 and a raw word in 0..0x3FF (R46), at least
one edge in `IDLE n` (R47). -/
def AsmLine.wellFormed : AsmLine → Bool
  | .reset => true
  | .write imm => decide (imm ≤ 255)
  | .idle => true
  | .word w => decide (w ≤ 0x3FF)
  | .idleN n => decide (1 ≤ n)
  | .writef _ => true
  | .expect _ _ => true
  | .blank => true

end Sys2Proof
end

