-- ==== Sys2Proof/Decode.lean ====
section
/-! DEFINITION. Decoding and encoding of the opcode table's words (spec 30_encoding.md R40 to R45).
A CMD row's word is the 10-bit command word; an OUT row's word is the 8-bit word over `ctrl` in which
the row's mask names the select bit (R43, log entry 5). -/

namespace Sys2Proof

/-- A word of the opcode table, by the row's format. -/
inductive CodeWord where
  /-- Format CMD: the command word `rst : we : din` (R40). -/
  | cmd (w : CommandWord)
  /-- Format OUT: the word over `ctrl` that names a port by its select bit (R43). -/
  | out (w : Byte)
deriving DecidableEq, Repr

/-- Why an OUT word names no row. A CMD word is never rejected (R42, R44). -/
inductive DecodeError where
  /-- None of the four select bits is set. -/
  | selectsNoPort
  /-- More than one select bit is set, so the word fits several rows. -/
  | selectsSeveralPorts
deriving DecidableEq, Repr

/-- The data field `cmd[7:0]`, taken unmodified (R41). -/
def commandData (w : CommandWord) : Byte := w.extractLsb' 0 8

/-- Decoding of a command word, total (R42): RESET wins over WRITE, and an edge with neither is IDLE. -/
def decodeCommand (w : CommandWord) : Instr :=
  if w.getLsbD 9 then .reset
  else if w.getLsbD 8 then .write (commandData w)
  else .idle

/-- Decoding of an OUT word. The select bits are 2, 3, 4 and 7 of `ctrl` (R43); bits 0, 1, 5 and 6
reach no port (R26) and are ignored. DESIGN CHOICE: exactly one select bit must be set (log entry 5,
safe). -/
def decodeSelect (w : Byte) : Except DecodeError Instr :=
  match w.getLsbD 2, w.getLsbD 3, w.getLsbD 4, w.getLsbD 7 with
  | true, false, false, false => .ok .vramAddressIncrement
  | false, true, false, false => .ok .spritePatternAddress
  | false, false, true, false => .ok .backgroundPatternAddress
  | false, false, false, true => .ok .shouldGenerateVblankNmi
  | false, false, false, false => .error .selectsNoPort
  | _, _, _, _ => .error .selectsSeveralPorts

/-- Decoding of any word of the table. -/
def decode : CodeWord → Except DecodeError Instr
  | .cmd w => .ok (decodeCommand w)
  | .out w => decodeSelect w

/-- The word of an instruction: the canonical command words of R46, and for a query the row's mask
over `ctrl` (R43). -/
def encode : Instr → CodeWord
  | .reset => .cmd 0x200
  | .write d => .cmd (0x100 ||| d.setWidth 10)
  | .idle => .cmd 0x000
  | .vramAddressIncrement => .out 0x04
  | .shouldGenerateVblankNmi => .out 0x80
  | .backgroundPatternAddress => .out 0x10
  | .spritePatternAddress => .out 0x08

/-- A row of the opcode table: its mask and match over the format's word. -/
inductive Row where
  | cmd (mask pattern : CommandWord)
  | out (mask pattern : Byte)
deriving DecidableEq, Repr

/-- The mask and match columns of spec/opcode_table.json, which are also the opcode map and the output
map of 30_encoding.md section 2. -/
def tableRow : Instr → Row
  | .reset => .cmd 0x200 0x200
  | .write _ => .cmd 0x300 0x100
  | .idle => .cmd 0x300 0x000
  | .vramAddressIncrement => .out 0x04 0x04
  | .shouldGenerateVblankNmi => .out 0x80 0x80
  | .backgroundPatternAddress => .out 0x10 0x10
  | .spritePatternAddress => .out 0x08 0x08

/-- A word fits a row when the row's format is the word's and `word & mask == match`. -/
def rowFits : Row → CodeWord → Bool
  | .cmd m p, .cmd w => w &&& m == p
  | .out m p, .out w => w &&& m == p
  | .cmd _ _, .out _ => false
  | .out _ _, .cmd _ => false

/-- The word an opcode-table row's bits stand for, by the row's length in whole bytes: two bytes hold
a command word in bits 9..0, one byte an OUT word. DESIGN CHOICE: bits 15..10 of the two bytes are no
port's, and a word in which one is set is no command word (log entry 6, safe). -/
def codeWordOfTable (nbits w : Nat) : Option CodeWord :=
  if nbits = 16 ∧ w < 1024 then some (.cmd (BitVec.ofNat 10 w))
  else if nbits = 8 ∧ w < 256 then some (.out (BitVec.ofNat 8 w))
  else none

/-- The instruction read from an opcode-table word. -/
def decodeTableWord (nbits w : Nat) : Option Instr :=
  match codeWordOfTable nbits w with
  | some c =>
    match decode c with
    | .ok i => some i
    | .error _ => none
  | none => none

end Sys2Proof
end

