-- ==== Sys2Proof/Config.lean ====
section
/-! DEFINITION. What an implementation fixes (spec 00_scope.md R8). Every parameter of R8 but one has
its value in the spec; the widths are the types of Word.lean. -/

namespace Sys2Proof

/-- The power-on and reset value of `ctrl` (10_state.md R27). -/
def Config.resetValue : Byte := 0x00

/-- `CTRL_ADDR`, the CPU bus address whose stores raise `we`: left OPEN, a parameter of the platform
(20_memory.md R35, 92_eei_decisions.md D4). It has no value here. DESIGN CHOICE: a natural number,
since the spec gives no bus width (log entry 7, safe). -/
opaque Config.ctrlAddr : Nat

end Sys2Proof
end

