-- ==== Sys2Proof/Machine/State.lean ====
section
/-! DEFINITION. The state of the block (spec 10_state.md): the one register `ctrl` (R13, R28), and beside
it two fields of the model's own, the inputs that are still to come and the port values read so far,
since the step the host runs takes a state and nothing else (log entries 2 and 4). -/

namespace Sys2Proof.Machine

/-- The levels of the input ports sampled at one rising edge of `clk` (R24). They are booleans and a
byte, so an unknown level cannot be written down (R66). -/
structure Ports where
  /-- `rst`, synchronous reset, active high. -/
  rst : Bool
  /-- `we`, write strobe, active high. -/
  we : Bool
  /-- `din[7:0]`, the byte the CPU stored. -/
  din : Byte
deriving DecidableEq, Repr

/-- What the outside world does next to the block. DESIGN CHOICE (log entry 1, safe): one of these is
one step of the model. -/
inductive Stimulus where
  /-- One rising edge of `clk` at which the input ports have these levels (R12, R40). -/
  | edge (p : Ports)
  /-- One read of an output port by its consumer, between two edges; `sel` names the port by its select
  bit over `ctrl`, as the OUT rows of the opcode table do (R43, log entry 5). -/
  | sample (sel : Byte)
deriving DecidableEq, Repr

/-- A port value read by its consumer, at the port's width (R7, R25). -/
inductive Observation where
  | vramInc (v : Byte)
  | nmiEn (v : Bool)
  | bgPatAddr (v : PatternAddr)
  | sprPatAddr (v : PatternAddr)
deriving DecidableEq, Repr

/-- The state. `ctrl` is all that the spec gives the machine (R13, R28). -/
structure State where
  /-- The 8-bit register (R13). -/
  ctrl : Byte
  /-- The MODEL's own: what the outside world does next, oldest first (log entry 2). -/
  pending : List Stimulus
  /-- The MODEL's own: the port values read so far, newest first (log entry 4). -/
  observed : List Observation
deriving DecidableEq, Repr

/-- No fault: the block raises no exception and every command and every output is total (R59). -/
inductive Fault where
deriving DecidableEq, Repr

/-- Why the model has no next state. No command and no read of a port is among these (R44, R59). -/
inductive Refusal where
  /-- Raised by an arm of `exec` that has no meaning yet; safe. None is left. -/
  | notModelled (mnemonic : String)
  /-- Raised by `step` when nothing is pending: the environment has not said what it drives, and the
  model refuses rather than pick a value (R66, log entry 3); safe. -/
  | inputsNotGiven
  /-- Raised by `step` on a select word that names no output port (log entry 5); safe. -/
  | selectsNoPort
  /-- Raised by `step` on a select word that names several output ports (log entry 5); safe. -/
  | selectsSeveralPorts
deriving DecidableEq, Repr

/-- Power-on: `ctrl` is 0x00 before any edge (R27, R67). The model's own fields are empty: no input is
given yet and no port has been read (DESIGN CHOICE, log entries 2 and 4). -/
def State.reset : State where
  ctrl := Config.resetValue
  pending := []
  observed := []

end Sys2Proof.Machine
end

