-- ==== Sys2Proof/Machine/Operands.lean ====
section
/-! DEFINITION. The operands: how the three input ports make the command word (spec 30_encoding.md R40),
and the 2:1 multiplexer with the constants it picks from (00_scope.md R11, 30_encoding.md R43). -/

namespace Sys2Proof.Machine

/-- `cmd = rst : we : din`, most significant first (R40). -/
def Ports.word (p : Ports) : CommandWord :=
  BitVec.ofBool p.rst ++ BitVec.ofBool p.we ++ p.din

/-- The port levels that a command word is the view of (R40). -/
def Ports.ofWord (w : CommandWord) : Ports where
  rst := w.getLsbD 9
  we := w.getLsbD 8
  din := w.extractLsb' 0 8

/-- The 2:1 multiplexer `c ? a : b` (R11). -/
def mux (c : Bool) {α : Type} (a b : α) : α :=
  match c with
  | true => a
  | false => b

/-- `vram_inc` when its select bit is set (R53). -/
def vramIncWhenSet : Byte := 32

/-- `vram_inc` when its select bit is clear (R53). -/
def vramIncWhenClear : Byte := 1

/-- A pattern table address when its select bit is set (R55, R56). -/
def patternAddrWhenSet : PatternAddr := 0x1000

/-- A pattern table address when its select bit is clear (R55, R56). -/
def patternAddrWhenClear : PatternAddr := 0x0000

end Sys2Proof.Machine
end

