-- ==== Sys2Proof/Machine/Flags.lean ====
section
/-! DEFINITION. The bit-field extractor (spec 41_output_decode.md R52, 10_state.md R16 to R23). The eight
fields are the block's only flags; each is one bit of `ctrl`. -/

namespace Sys2Proof

/-- The bit index of a field (10_state.md section 2, R52). -/
def Field.index : Field → Nat
  | .nameTable1 => 0
  | .nameTable2 => 1
  | .vramAddIncrement => 2
  | .spritePatternAddr => 3
  | .bgPatternAddr => 4
  | .spriteSize => 5
  | .masterSlaveSelect => 6
  | .generateNmi => 7

/-- The named mask of a field, as R47 lists it. -/
def Field.mask : Field → Byte
  | .nameTable1 => 0x01
  | .nameTable2 => 0x02
  | .vramAddIncrement => 0x04
  | .spritePatternAddr => 0x08
  | .bgPatternAddr => 0x10
  | .spriteSize => 0x20
  | .masterSlaveSelect => 0x40
  | .generateNmi => 0x80

/-- A field's value in `c`: the single bit at its index (R52). -/
def Field.get (f : Field) (c : Byte) : Bool := c.getLsbD f.index

/-- The two-bit nametable select number `ctrl[1:0]` (R17). Which address it selects is not in the spec,
and the model gives it none. -/
def nametableSelect (c : Byte) : BitVec 2 := c.extractLsb' 0 2

end Sys2Proof
end

