-- ==== Sys2Proof/Machine/Outputs.lean ====
section
/-! DEFINITION. The four output ports as functions of `ctrl` alone (spec 41_output_decode.md R53 to R58,
30_encoding.md R43). -/

namespace Sys2Proof.Machine

/-- `vram_inc = ctrl[2] ? 32 : 1` (R53). -/
def vramInc (c : Byte) : Byte :=
  mux (Field.vramAddIncrement.get c) vramIncWhenSet vramIncWhenClear

/-- `nmi_en = ctrl[7]` (R54): a level, not a pulse. -/
def nmiEn (c : Byte) : Bool :=
  mux (Field.generateNmi.get c) true false

/-- `bg_pat_addr = ctrl[4] ? 0x1000 : 0x0000` (R55). -/
def bgPatAddr (c : Byte) : PatternAddr :=
  mux (Field.bgPatternAddr.get c) patternAddrWhenSet patternAddrWhenClear

/-- `spr_pat_addr = ctrl[3] ? 0x1000 : 0x0000` (R56). -/
def sprPatAddr (c : Byte) : PatternAddr :=
  mux (Field.spritePatternAddr.get c) patternAddrWhenSet patternAddrWhenClear

/-- The four ports together: all are valid in every cycle (R43, R58). -/
structure Outputs where
  vramInc : Byte
  nmiEn : Bool
  bgPatAddr : PatternAddr
  sprPatAddr : PatternAddr
deriving DecidableEq, Repr

/-- The output function of the block (41_output_decode.md, opening listing). -/
def outputsOf (c : Byte) : Outputs where
  vramInc := vramInc c
  nmiEn := nmiEn c
  bgPatAddr := bgPatAddr c
  sprPatAddr := sprPatAddr c

/-- The outputs a state drives: a function of the stored `ctrl` only, with no bypass of the inputs
(R58). -/
def State.outputs (s : State) : Outputs := outputsOf s.ctrl

/-- What the consumer of a port reads when `ctrl` is `c`. -/
def observe (p : OutputPort) (c : Byte) : Observation :=
  match p with
  | .vramInc => .vramInc (vramInc c)
  | .nmiEn => .nmiEn (nmiEn c)
  | .bgPatAddr => .bgPatAddr (bgPatAddr c)
  | .sprPatAddr => .sprPatAddr (sprPatAddr c)

/-- The value of a port as a number, as an `EXPECT` line compares it (R46; R10: true is 1). -/
def portValue (p : OutputPort) (c : Byte) : Nat :=
  match p with
  | .vramInc => (vramInc c).toNat
  | .nmiEn => (nmiEn c).toNat
  | .bgPatAddr => (bgPatAddr c).toNat
  | .sprPatAddr => (sprPatAddr c).toNat

/-- The field whose bit is a port's select (R43, output map). -/
def selectField : OutputPort → Field
  | .vramInc => .vramAddIncrement
  | .nmiEn => .generateNmi
  | .bgPatAddr => .bgPatternAddr
  | .sprPatAddr => .spritePatternAddr

/-- A port's value when its select bit is set (R43, output map). -/
def valueWhenSet : OutputPort → Nat
  | .vramInc => 32
  | .nmiEn => 1
  | .bgPatAddr => 0x1000
  | .sprPatAddr => 0x1000

/-- A port's value when its select bit is clear (R43, output map). -/
def valueWhenClear : OutputPort → Nat
  | .vramInc => 1
  | .nmiEn => 0
  | .bgPatAddr => 0x0000
  | .sprPatAddr => 0x0000

/-- The query of a port (R25, R43). -/
def queryOf : OutputPort → Instr
  | .vramInc => .vramAddressIncrement
  | .nmiEn => .shouldGenerateVblankNmi
  | .bgPatAddr => .backgroundPatternAddress
  | .sprPatAddr => .spritePatternAddress

end Sys2Proof.Machine
end

