-- ==== Sys2Proof/Machine/Ops.lean ====
section
/-! DEFINITION. The shared operations: the register write, which is the only way `ctrl` changes (spec
00_scope.md R11, 10_state.md R15), the record of a port read, and the fetch of the next stimulus.
There is no operation on memory (20_memory.md R29) and none that takes or leaves an exception, since
the block has no trap (60_exceptions.md R59, R63). -/

namespace Sys2Proof.Machine

/-- `ctrl <- v`: all eight bits at once (R11, R32). -/
def State.writeCtrl (s : State) (v : Byte) : State := { s with ctrl := v }

/-- A consumer has read a port: only the model's own record grows; nothing of the block changes (R34,
log entry 4). -/
def State.readPort (s : State) (p : OutputPort) : State :=
  { s with observed := observe p s.ctrl :: s.observed }

/-- The word the block or a port's consumer presents to the decoder (R40, R43). -/
def Stimulus.codeWord : Stimulus → CodeWord
  | .edge p => .cmd p.word
  | .sample sel => .out sel

/-- The stimulus that presents a word. -/
def stimulusOf : CodeWord → Stimulus
  | .cmd w => .edge (Ports.ofWord w)
  | .out w => .sample w

/-- The next stimulus, and the state with it taken from the list; none when nothing is pending. -/
def State.takeStimulus (s : State) : Option (Stimulus × State) :=
  match s.pending with
  | [] => none
  | e :: rest => some (e, { s with pending := rest })

/-- The refusal that answers a word the decoder rejects (log entry 5). -/
def refusalOf : DecodeError → Refusal
  | .selectsNoPort => .selectsNoPort
  | .selectsSeveralPorts => .selectsSeveralPorts

/-- A stimulus put in front of what is pending. -/
def State.present (s : State) (e : Stimulus) : State := { s with pending := e :: s.pending }

/-- The state in which an opcode-table word is the next thing presented; with a word that is none of
the table's, nothing is pending. -/
def State.presentTableWord (s : State) (nbits w : Nat) : State :=
  match codeWordOfTable nbits w with
  | some c => s.present (stimulusOf c)
  | none => { s with pending := [] }

end Sys2Proof.Machine
end

