-- ==== Sys2Proof/Machine/OutputQueries.lean ====
section
/-! DEFINITION. The four output queries (spec 41_output_decode.md R53 to R56), each one read of a port by
its consumer. A query is a pure function of `ctrl` (R34); what the consumer reads goes into the
model's own record (log entry 4). -/

namespace Sys2Proof.Machine

/-- `vram_address_increment()` (R53). -/
def execVramAddressIncrement (s : State) : Host.Outcome State Fault Refusal :=
  .next (s.readPort .vramInc)

/-- `should_generate_vblank_nmi()` (R54). -/
def execShouldGenerateVblankNmi (s : State) : Host.Outcome State Fault Refusal :=
  .next (s.readPort .nmiEn)

/-- `background_pattern_address()` (R55). -/
def execBackgroundPatternAddress (s : State) : Host.Outcome State Fault Refusal :=
  .next (s.readPort .bgPatAddr)

/-- `sprite_pattern_address()` (R56). -/
def execSpritePatternAddress (s : State) : Host.Outcome State Fault Refusal :=
  .next (s.readPort .sprPatAddr)

end Sys2Proof.Machine
end

