-- ==== Sys2Proof/Machine/RegisterWrite.lean ====
section
/-! DEFINITION. The three commands (spec 40_register_write.md R48 to R50). -/

namespace Sys2Proof.Machine

/-- RESET (R48): `ctrl <- 0x00`. -/
def execReset (s : State) : Host.Outcome State Fault Refusal :=
  .next (s.writeCtrl Config.resetValue)

/-- WRITE d (R49): `ctrl <- d`, a full overwrite in which the old value plays no part. -/
def execWrite (d : Byte) (s : State) : Host.Outcome State Fault Refusal :=
  .next (s.writeCtrl d)

/-- IDLE (R50): `ctrl <- ctrl`. -/
def execIdle (s : State) : Host.Outcome State Fault Refusal :=
  .next (s.writeCtrl s.ctrl)

end Sys2Proof.Machine
end

