-- ==== Sys2Proof/Machine/Dispatch.lean ====
section
/-! DEFINITION. The meaning of every instruction, one arm per row of the opcode table. -/

namespace Sys2Proof.Machine

def exec (i : Instr) (s : State) : Host.Outcome State Fault Refusal :=
  match i with
  | .reset => Sys2Proof.Machine.execReset s
  | .write d => Sys2Proof.Machine.execWrite d s
  | .idle => Sys2Proof.Machine.execIdle s
  | .vramAddressIncrement => Sys2Proof.Machine.execVramAddressIncrement s
  | .shouldGenerateVblankNmi => Sys2Proof.Machine.execShouldGenerateVblankNmi s
  | .backgroundPatternAddress => Sys2Proof.Machine.execBackgroundPatternAddress s
  | .spritePatternAddress => Sys2Proof.Machine.execSpritePatternAddress s

end Sys2Proof.Machine
end

