-- ==== Sys2Proof/Machine/Step.lean ====
section
/-! DEFINITION. One step: the next stimulus is taken, its word decoded and the instruction run (spec
00_scope.md R12, 20_memory.md R36; log entries 1 to 3). -/

namespace Sys2Proof.Machine

/-- One step of the model. With nothing pending there is no edge whose inputs are known, and the model
refuses (R66, log entry 3). -/
def step (s : State) : Host.Outcome State Fault Refusal :=
  match s.takeStimulus with
  | none => .refused .inputsNotGiven
  | some (e, s') =>
    match decode e.codeWord with
    | .ok i => exec i s'
    | .error r => .refused (refusalOf r)

/-- `s` with an opcode-table word as the next thing the outside world presents, before whatever was
pending (log entry 2). -/
def State.withFetchWord (s : State) (nbits w : Nat) : State := s.presentTableWord nbits w

end Sys2Proof.Machine
end

