-- ==== Sys2Proof/Machine/Assembler.lean ====
section
/-! DEFINITION. The assembler syntax of test programs (spec 30_encoding.md R46, R47; 92_eei_decisions.md
D15), with the literals of 00_scope.md R10. Where R46 does not say how a line is cut into words, log
entry 8 does. -/

namespace Sys2Proof.Machine

/-- The OR of the masks of the named fields; 0x00 with none (R47). -/
def fieldsByte : List Field → Byte
  | [] => 0x00
  | f :: fs => f.mask ||| fieldsByte fs

/-- The command words a line stands for (R46, R47), for operands in range. -/
def lineWords : AsmLine → List CommandWord
  | .reset => [0x200]
  | .write imm => [0x100 ||| BitVec.ofNat 10 imm]
  | .idle => [0x000]
  | .word w => [BitVec.ofNat 10 w]
  | .idleN n => List.replicate n 0x000
  | .writef fs => [0x100 ||| (fieldsByte fs).setWidth 10]
  | .expect _ _ => []
  | .blank => []

/-- A line's words, or none where the assembler refuses an operand out of range (R46, R47). -/
def assembleLine (l : AsmLine) : Option (List CommandWord) :=
  match l.wellFormed with
  | true => some (lineWords l)
  | false => none

/-- A program's words, one edge each, in order (R46). -/
def assembleProgram : List AsmLine → Option (List CommandWord)
  | [] => some []
  | l :: ls =>
    match assembleLine l, assembleProgram ls with
    | some ws, some rest => some (ws ++ rest)
    | _, _ => none

/-- The assertions of a program: after how many edges each is checked, its port and its value. R46 puts
an assertion "after the previous line's edge". Where that names no one edge, log entry 8 settles it
(safe). DESIGN CHOICE: with no command line before it, it is checked after 0 edges, against the outputs
of the state the program starts from; after an empty line or a comment, after all the edges before it.
DEDUCED: after another `EXPECT`, at the same moment as that one (95_test_vectors.md P1); after `IDLE n`,
after the last of its edges (R47 makes it n lines). -/
def expectationsFrom (edges : Nat) : List AsmLine → List (Nat × OutputPort × Nat)
  | [] => []
  | .expect p v :: ls => (edges, p, v) :: expectationsFrom edges ls
  | l :: ls => expectationsFrom (edges + (lineWords l).length) ls

/-- A sequence of command words is what the outside world presents next, one edge each. -/
def State.loadWords (s : State) (ws : List CommandWord) : State :=
  { s with pending := ws.map fun w => stimulusOf (.cmd w) }

/-- The value of one digit, hexadecimal digits in either case. -/
def digitValue (c : Char) : Option Nat :=
  if '0' ≤ c ∧ c ≤ '9' then some (c.toNat - 48)
  else if 'a' ≤ c ∧ c ≤ 'f' then some (c.toNat - 87)
  else if 'A' ≤ c ∧ c ≤ 'F' then some (c.toNat - 55)
  else none

/-- Digits of a number, most significant first; `seen` says that one has been read. The underscore is
a separator with no value where it is allowed (R10). -/
def readDigits (base : Nat) (underscores : Bool) : List Char → Nat → Bool → Option Nat
  | [], acc, seen => if seen then some acc else none
  | c :: cs, acc, seen =>
    if underscores && c == '_' then readDigits base underscores cs acc seen
    else
      match digitValue c with
      | some d => if d < base then readDigits base underscores cs (acc * base + d) true else none
      | none => none

/-- A literal: `0b` binary with underscores, `0x` hexadecimal, or decimal (R10). -/
def parseLiteral : List Char → Option Nat
  | '0' :: 'b' :: cs => readDigits 2 true cs 0 false
  | '0' :: 'x' :: cs => readDigits 16 false cs 0 false
  | cs => readDigits 10 false cs 0 false

/-- A field by the source's name (10_state.md section 2). -/
def fieldNamed (cs : List Char) : Option Field :=
  if cs == "NAME_TABLE_1".toList then some .nameTable1
  else if cs == "NAME_TABLE_2".toList then some .nameTable2
  else if cs == "VRAM_ADD_INCREMENT".toList then some .vramAddIncrement
  else if cs == "SPRITE_PATTERN_ADDR".toList then some .spritePatternAddr
  else if cs == "BG_PATTERN_ADDR".toList then some .bgPatternAddr
  else if cs == "SPRITE_SIZE".toList then some .spriteSize
  else if cs == "MASTER_SLAVE_SELECT".toList then some .masterSlaveSelect
  else if cs == "GENERATE_NMI".toList then some .generateNmi
  else none

/-- A port by its name (R25). -/
def portNamed (cs : List Char) : Option OutputPort :=
  if cs == "vram_inc".toList then some .vramInc
  else if cs == "nmi_en".toList then some .nmiEn
  else if cs == "bg_pat_addr".toList then some .bgPatAddr
  else if cs == "spr_pat_addr".toList then some .sprPatAddr
  else none

/-- The pieces of a text between the characters that `sep` accepts. -/
def pieces (sep : Char → Bool) : List Char → List (List Char)
  | [] => [[]]
  | c :: cs =>
    match sep c, pieces sep cs with
    | true, ps => [] :: ps
    | false, p :: ps => (c :: p) :: ps
    | false, [] => [[c]]

/-- A line's text up to its comment (R46). -/
def withoutComment : List Char → List Char
  | [] => []
  | c :: cs => if c == ';' then [] else c :: withoutComment cs

/-- A line's words, cut at blanks. -/
def tokens (cs : List Char) : List (List Char) :=
  (pieces (fun c => c == ' ' || c == '\t') (withoutComment cs)).filter fun p => !p.isEmpty

/-- The fields of `f1|f2|...`. -/
def fieldsNamed : List (List Char) → Option (List Field)
  | [] => some []
  | p :: ps =>
    match fieldNamed p, fieldsNamed ps with
    | some f, some fs => some (f :: fs)
    | _, _ => none

/-- `RESET`, or the source's name `create` (R46). -/
def isReset (t : List Char) : Bool := t == "RESET".toList || t == "create".toList

/-- `WRITE`, or the source's name `update` (R46). -/
def isWrite (t : List Char) : Bool := t == "WRITE".toList || t == "update".toList

/-- `IDLE`, or its second name `NOP` (R46). -/
def isIdle (t : List Char) : Bool := t == "IDLE".toList || t == "NOP".toList

/-- One line of text, read as R46 and R47 give the syntax; none where it is no line of that syntax. -/
def parseLine (cs : List Char) : Option AsmLine :=
  match tokens cs with
  | [] => some .blank
  | [m] =>
    if isReset m then some .reset
    else if isIdle m then some .idle
    else if m == "WRITEF".toList then some (.writef [])
    else none
  | [m, a] =>
    if isWrite m then (parseLiteral a).map .write
    else if m == ".word".toList then (parseLiteral a).map .word
    else if isIdle m then (parseLiteral a).map .idleN
    else if m == "WRITEF".toList then (fieldsNamed (pieces (fun c => c == '|') a)).map .writef
    else none
  | [e, p, q, a] =>
    if e == "EXPECT".toList && q == "==".toList then
      match portNamed p, parseLiteral a with
      | some port, some v => some (.expect port v)
      | _, _ => none
    else none
  | _ => none

/-- The lines of a program's text. -/
def parseProgram : List String → Option (List AsmLine)
  | [] => some []
  | l :: ls =>
    match parseLine l.toList, parseProgram ls with
    | some a, some rest => some (a :: rest)
    | _, _ => none

end Sys2Proof.Machine
end

