-- ==== Sys2Proof/Machine/Platform.lean ====
section
/-! DEFINITION. The address decoder that stands outside the block and drives its write strobe (spec
10_state.md R24, 20_memory.md R35, 92_eei_decisions.md D4). Only what the block sees of a CPU store is
here; the bus itself is out of scope (R4, R74). -/

namespace Sys2Proof.Machine

/-- The port levels at the edge of a CPU store of `d` to `addr`, when the register is mapped at
`ctrlAddr`: `we` is raised exactly for that address (R24, R35), whatever program stored (R64). DESIGN
CHOICE: `din` carries the stored byte for every address, since the block ignores it when `we` is clear
(log entry 7, safe). -/
def decoderPorts (ctrlAddr addr : Nat) (d : Byte) : Ports where
  rst := false
  we := decide (addr = ctrlAddr)
  din := d

/-- A CPU store is the next thing presented to the block. -/
def State.cpuStore (s : State) (addr : Nat) (d : Byte) : State :=
  s.present (.edge (decoderPorts Config.ctrlAddr addr d))

end Sys2Proof.Machine
end

