-- ==== Sys2Proof/Safety.lean ====
section
/-! DEFINITION. What a safe run is, the invariant of the model, and the block as the spec's own listings
give it, apart from the machine: the terms in which the statements speak. -/

namespace Sys2Proof.Machine

/-- A run of `k` steps from `s` ends in a next state, with no fault and no refusal on the way. -/
def SafeRun (k : Nat) (s : State) : Prop :=
  ∃ t, Host.Core.run Sys2Proof.core k s = .next t

/-- A stimulus whose word is a row of the opcode table: every edge is (R42), and every select word with
exactly one select bit. -/
def Stimulus.legal (e : Stimulus) : Bool :=
  match decode e.codeWord with
  | .ok _ => true
  | .error _ => false

/-- Everything that is pending is legal. -/
def State.wellDriven (s : State) : Bool := s.pending.all Stimulus.legal

/-- A value its port can have: `vram_inc` is 1 or 32 (R53), a pattern table address 0x0000 or 0x1000
(R55, R56). -/
def Observation.legal : Observation → Bool
  | .vramInc v => v == 1 || v == 32
  | .nmiEn _ => true
  | .bgPatAddr v => v == 0x0000 || v == 0x1000
  | .sprPatAddr v => v == 0x0000 || v == 0x1000

/-- The invariant: every port value read so far is one its port can have. -/
def State.observedLegal (s : State) : Bool := s.observed.all Observation.legal

/-- The block's step function, as 40_register_write.md lists it over the input ports. -/
def blockNext (c : Byte) (p : Ports) : Byte :=
  if p.rst then 0x00 else if p.we then p.din else c

/-- What R51 says a sequence of commands leaves: the byte of the last WRITE if no RESET follows it, 0x00
if the last request is a RESET, and the old value where no edge requests anything. -/
def lastRequested (c : Byte) (ps : List Ports) : Byte :=
  match ps.reverse.find? (fun p => p.rst || p.we) with
  | none => c
  | some p => if p.rst then 0x00 else p.din

/-- What happens to the block in the spec's own terms: an edge, or the read of a named port. -/
inductive Event where
  | edge (p : Ports)
  | read (q : OutputPort)
deriving DecidableEq, Repr

/-- The stimulus that brings an event about: a port is named by its select bit (R43). -/
def Event.stimulus : Event → Stimulus
  | .edge p => .edge p
  | .read q => .sample (selectField q).mask

/-- The block as a Moore machine (R12, R36): the register after a sequence of events, and the values the
reads see, newest first on top of `seen`. -/
def mooreRun (c : Byte) (seen : List Observation) : List Event → Byte × List Observation
  | [] => (c, seen)
  | .edge p :: es => mooreRun (blockNext c p) seen es
  | .read q :: es => mooreRun c (observe q c :: seen) es

/-- The bits of `ctrl` that reach a port: 2, 3, 4 and 7 (R26, R52). -/
def decodedBits : Byte := 0x9C

/-- Two registers that differ at most in the bits that reach no port. -/
def agreeOnDecodedBits (c c' : Byte) : Bool := c &&& decodedBits == c' &&& decodedBits

/-- A test program's assertions all hold when its words are run from `s` (R46). An assertion with no
command line before it is checked against `s` itself, and a program that does not assemble does not pass
(DESIGN CHOICE, log entry 8, safe). -/
def programPasses (ls : List AsmLine) (s : State) : Bool :=
  match assembleProgram ls with
  | none => false
  | some ws =>
    (expectationsFrom 0 ls).all fun x =>
      match Host.Core.run Sys2Proof.core x.1 (s.loadWords ws) with
      | .next t => portValue x.2.1 t.ctrl == x.2.2
      | .fault _ => false
      | .refused _ => false

end Sys2Proof.Machine
end

