-- ==== Sys2Proof/Certificates/Slice0/Obligations.lean ====
section
/-! DEFINITION. The statements for the provers. Each docstring names the rule of spec/ it formalises, or
says what of it is the model's own choice and which log entry declares that. -/

open Sys2Proof Sys2Proof.Machine

/-! ### Reset -/

/-- R27, R67: at power-on, before any edge, and after every RESET, `ctrl` is 0x00 and every field is 0. -/
def Obligations.PowerOnAndResetClearTheRegister : Prop :=
  State.reset.ctrl = 0x00 ∧ (∀ f : Field, f.get State.reset.ctrl = false) ∧
    ∀ s : State, exec .reset s = .next { s with ctrl := 0x00 }

/-- R69: the outputs after power-on and after RESET. -/
def Obligations.OutputsAfterPowerOnAndReset : Prop :=
  State.reset.outputs = { vramInc := 1, nmiEn := false, bgPatAddr := 0x0000, sprPatAddr := 0x0000 } ∧
    ∀ s : State, ∃ t, exec .reset s = .next t ∧
      t.outputs = { vramInc := 1, nmiEn := false, bgPatAddr := 0x0000, sprPatAddr := 0x0000 }

/-- R70: from the first edge after power-on, and from the first after a RESET, a WRITE takes effect; reset
leaves the NMI enable clear. -/
def Obligations.FirstEdgeAfterResetTakesAWrite : Prop :=
  (∀ (d : Byte) (rest : List Stimulus),
    step { State.reset with pending := .edge ⟨false, true, d⟩ :: rest } =
      .next { State.reset with ctrl := d, pending := rest }) ∧
  (∀ (s : State) (we : Bool) (x d : Byte) (rest : List Stimulus),
    Host.Core.run Sys2Proof.core 2
        { s with pending := .edge ⟨true, we, x⟩ :: .edge ⟨false, true, d⟩ :: rest } =
      .next { s with ctrl := d, pending := rest }) ∧
  State.reset.outputs.nmiEn = false

/-! ### The commands -/

/-- R48: an edge with `rst` high clears `ctrl` whatever `we` and `din` are, changes nothing else, and
leaves the outputs of the cleared register. -/
def Obligations.ResetEdgeClearsWhateverTheOtherInputs : Prop :=
  ∀ (s : State) (we : Bool) (d : Byte) (rest : List Stimulus),
    step { s with pending := .edge ⟨true, we, d⟩ :: rest } =
        .next { s with ctrl := 0x00, pending := rest } ∧
      (∀ f : Field, f.get (0x00 : Byte) = false) ∧
      outputsOf 0x00 = { vramInc := 1, nmiEn := false, bgPatAddr := 0x0000, sprPatAddr := 0x0000 } ∧
      exec .reset s = .next { s with ctrl := 0x00 }

/-- R49: WRITE d makes `ctrl` equal to d, field i becoming `d[i]`, whatever `ctrl` held, and changes
nothing else; WRITE 0x00 does what RESET does; writing the value held changes nothing; the outputs show
d only after the edge. -/
def Obligations.WriteReplacesTheWholeRegister : Prop :=
  ∀ (s : State) (d : Byte),
    exec (.write d) s = .next { s with ctrl := d } ∧
      (∀ t, exec (.write d) s = .next t → ∀ f : Field, f.get t.ctrl = d.getLsbD f.index) ∧
      exec (.write 0x00) s = exec .reset s ∧
      exec (.write s.ctrl) s = .next s ∧
      ∀ rest : List Stimulus,
        State.outputs { s with pending := .edge ⟨false, true, d⟩ :: rest } = outputsOf s.ctrl ∧
        step { s with pending := .edge ⟨false, true, d⟩ :: rest } =
          .next { s with ctrl := d, pending := rest }

/-- R50: an edge with no request keeps `ctrl` whatever `din` is, and so does any number of them. -/
def Obligations.IdleEdgesKeepTheRegister : Prop :=
  (∀ s : State, exec .idle s = .next s) ∧
  (∀ (s : State) (d : Byte) (rest : List Stimulus),
    step { s with pending := .edge ⟨false, false, d⟩ :: rest } = .next { s with pending := rest }) ∧
  ∀ (ds : List Byte) (s : State) (rest : List Stimulus),
    Host.Core.run Sys2Proof.core ds.length
        { s with pending := (ds.map fun d => Stimulus.edge ⟨false, false, d⟩) ++ rest } =
      .next { s with pending := rest }

/-- R51: WRITE a then WRITE b leaves what WRITE b alone leaves; after any sequence of edges `ctrl` is the
byte of the last WRITE after the last RESET, 0x00 if the last request is a RESET, and the value held
before (0x00 from power-on) if there was no request. -/
def Obligations.OverwriteLaw : Prop :=
  (∀ (s : State) (a b : Byte) (rest : List Stimulus),
    Host.Core.run Sys2Proof.core 2
        { s with pending := .edge ⟨false, true, a⟩ :: .edge ⟨false, true, b⟩ :: rest } =
      .next { s with ctrl := b, pending := rest } ∧
    Host.Core.run Sys2Proof.core 1 { s with pending := .edge ⟨false, true, b⟩ :: rest } =
      .next { s with ctrl := b, pending := rest }) ∧
  ∀ (ps : List Ports) (s : State) (rest : List Stimulus),
    Host.Core.run Sys2Proof.core ps.length { s with pending := ps.map Stimulus.edge ++ rest } =
      .next { s with ctrl := lastRequested s.ctrl ps, pending := rest }

/-- R12 and the listing that opens 40_register_write.md: an edge writes what the block's step function
gives for the ports and the old `ctrl`; between edges `ctrl` does not change. That a read of a port is a
step of its own is the model's choice (log entry 1). -/
def Obligations.EdgeComputesTheNextRegister : Prop :=
  (∀ (s : State) (p : Ports) (rest : List Stimulus),
    step { s with pending := .edge p :: rest } =
      .next { s with ctrl := blockNext s.ctrl p, pending := rest }) ∧
  ∀ (s t : State) (sel : Byte) (rest : List Stimulus),
    step { s with pending := .sample sel :: rest } = .next t → t.ctrl = s.ctrl

/-- R36: commands take effect one per edge, in edge order, and the outputs after k edges are those of the
`ctrl` that the k edges leave. -/
def Obligations.OutputsShowTheEdgesSoFar : Prop :=
  ∀ (ps : List Ports) (s : State) (rest : List Stimulus),
    ∃ t, Host.Core.run Sys2Proof.core ps.length { s with pending := ps.map Stimulus.edge ++ rest } = .next t ∧
      t.ctrl = ps.foldl blockNext s.ctrl ∧ t.outputs = outputsOf (ps.foldl blockNext s.ctrl)

/-- R15: only RESET and WRITE change `ctrl`, and each only to the whole byte it stands for; the same of
one step, by the edge's ports. -/
def Obligations.OnlyResetAndWriteChangeTheRegister : Prop :=
  (∀ (i : Instr) (s t : State), exec i s = .next t → t.ctrl ≠ s.ctrl →
    (i = .reset ∧ t.ctrl = 0x00) ∨ ∃ d, i = .write d ∧ t.ctrl = d) ∧
  ∀ s t : State, step s = .next t → t.ctrl ≠ s.ctrl →
    ∃ p rest, s.pending = .edge p :: rest ∧
      ((p.rst = true ∧ t.ctrl = 0x00) ∨ (p.rst = false ∧ p.we = true ∧ t.ctrl = p.din))

/-- R5, R14: every byte is a legal value of `ctrl`: one edge from power-on reaches each. -/
def Obligations.EveryByteIsReached : Prop :=
  ∀ v : Byte, ∃ p : Ports,
    step { State.reset with pending := [.edge p] } = .next { State.reset with ctrl := v }

/-- R34: reading a port changes neither `ctrl` nor any output; a write changes `ctrl` alone; and writing
the same byte twice leaves what writing it once leaves. -/
def Obligations.ReadsAndRepeatedWritesHaveNoSideEffect : Prop :=
  (∀ (q : OutputPort) (s : State), ∃ t, exec (queryOf q) s = .next t ∧
    t.ctrl = s.ctrl ∧ t.outputs = s.outputs ∧ t.pending = s.pending) ∧
  (∀ (d : Byte) (s : State), exec (.write d) s = .next { s with ctrl := d }) ∧
  ∀ (d : Byte) (s t : State), exec (.write d) s = .next t → exec (.write d) t = .next t

/-! ### Fields and outputs -/

/-- R52: each field is the bit of `ctrl` at its index, and is set when `ctrl & (1 << i)` is non-zero; only
bits 2, 3, 4 and 7 feed an output. -/
def Obligations.FieldsAreTheBitsOfTheRegister : Prop :=
  (∀ c : Byte,
    Field.nameTable1.get c = c.getLsbD 0 ∧ Field.nameTable2.get c = c.getLsbD 1 ∧
    Field.vramAddIncrement.get c = c.getLsbD 2 ∧ Field.spritePatternAddr.get c = c.getLsbD 3 ∧
    Field.bgPatternAddr.get c = c.getLsbD 4 ∧ Field.spriteSize.get c = c.getLsbD 5 ∧
    Field.masterSlaveSelect.get c = c.getLsbD 6 ∧ Field.generateNmi.get c = c.getLsbD 7) ∧
  (∀ (f : Field) (c : Byte), f.get c = true ↔ c &&& (1#8 <<< f.index) ≠ 0#8) ∧
  ∀ c c' : Byte, c.getLsbD 2 = c'.getLsbD 2 → c.getLsbD 3 = c'.getLsbD 3 → c.getLsbD 4 = c'.getLsbD 4 →
    c.getLsbD 7 = c'.getLsbD 7 → outputsOf c = outputsOf c'

/-- R17: the nametable select number is `2*ctrl[1] + ctrl[0]`, from 0 to 3, and drives no output. -/
def Obligations.NametableSelectNumber : Prop :=
  (∀ c : Byte, (nametableSelect c).toNat =
      2 * (Field.nameTable2.get c).toNat + (Field.nameTable1.get c).toNat ∧ (nametableSelect c).toNat ≤ 3) ∧
  ∀ (c : Byte) (n : Byte), outputsOf ((c &&& 0xFC) ||| (n &&& 0x03)) = outputsOf c

/-- R53: `vram_inc` is 32 when `ctrl[2]` is set and 1 when it is clear, never 0 nor anything else; its
query completes from every state and changes no field. -/
def Obligations.VramIncrementBySelectBit : Prop :=
  (∀ c : Byte, vramInc c = if c.getLsbD 2 then 32 else 1) ∧
  (∀ c : Byte, vramInc c = 1 ∨ vramInc c = 32) ∧
  (∀ s : State, s.outputs.vramInc = vramInc s.ctrl) ∧
  ∀ s : State, ∃ t, exec .vramAddressIncrement s = .next t ∧ t.ctrl = s.ctrl

/-- R54: `nmi_en` is `ctrl[7]`, a level; its query completes from every state and changes no field. -/
def Obligations.NmiEnableIsBitSeven : Prop :=
  (∀ c : Byte, nmiEn c = c.getLsbD 7) ∧
  (∀ s : State, s.outputs.nmiEn = nmiEn s.ctrl) ∧
  ∀ s : State, ∃ t, exec .shouldGenerateVblankNmi s = .next t ∧ t.ctrl = s.ctrl

/-- R55: `bg_pat_addr` is 0x1000 when `ctrl[4]` is set and 0x0000 when it is clear, so its bits 15:13 and
11:0 are always 0; its query completes from every state and changes no field. -/
def Obligations.BackgroundPatternAddressBySelectBit : Prop :=
  (∀ c : Byte, bgPatAddr c = if c.getLsbD 4 then 0x1000 else 0x0000) ∧
  (∀ c : Byte, bgPatAddr c &&& 0xEFFF = 0x0000) ∧
  (∀ s : State, s.outputs.bgPatAddr = bgPatAddr s.ctrl) ∧
  ∀ s : State, ∃ t, exec .backgroundPatternAddress s = .next t ∧ t.ctrl = s.ctrl

/-- R56: `spr_pat_addr` is 0x1000 when `ctrl[3]` is set and 0x0000 when it is clear, its other bits always
0; it and `bg_pat_addr` take every combination; its query completes from every state and changes no
field. -/
def Obligations.SpritePatternAddressBySelectBit : Prop :=
  (∀ c : Byte, sprPatAddr c = if c.getLsbD 3 then 0x1000 else 0x0000) ∧
  (∀ c : Byte, sprPatAddr c &&& 0xEFFF = 0x0000) ∧
  (∀ x y : Bool, ∃ c : Byte, (bgPatAddr c = if x then 0x1000 else 0x0000) ∧
    (sprPatAddr c = if y then 0x1000 else 0x0000)) ∧
  (∀ s : State, s.outputs.sprPatAddr = sprPatAddr s.ctrl) ∧
  ∀ s : State, ∃ t, exec .spritePatternAddress s = .next t ∧ t.ctrl = s.ctrl

/-- R57: each output depends on its one select bit only. -/
def Obligations.EachOutputDependsOnItsSelectBitOnly : Prop :=
  ∀ c c' : Byte,
    (c.getLsbD 2 = c'.getLsbD 2 → vramInc c = vramInc c') ∧
    (c.getLsbD 7 = c'.getLsbD 7 → nmiEn c = nmiEn c') ∧
    (c.getLsbD 4 = c'.getLsbD 4 → bgPatAddr c = bgPatAddr c') ∧
    (c.getLsbD 3 = c'.getLsbD 3 → sprPatAddr c = sprPatAddr c')

/-- R43, its rule for the OUT rows: with the row's mask and match over `ctrl`, the port takes its set value
when `ctrl & mask == match` and its clear value otherwise. -/
def Obligations.OutputRowsSelectTheirValues : Prop :=
  ∀ (q : OutputPort) (c : Byte), ∃ mask pattern : Byte,
    tableRow (queryOf q) = .out mask pattern ∧
      portValue q c = (if c &&& mask = pattern then valueWhenSet q else valueWhenClear q)

/-- R58 and R71: the outputs are a function of the stored `ctrl` only, whatever the inputs presented; a
WRITE shows on them just after its edge and not before it. -/
def Obligations.WriteToOutputLatency : Prop :=
  (∀ (s : State) (inputs : List Stimulus), State.outputs { s with pending := inputs } = outputsOf s.ctrl) ∧
  ∀ (s : State) (d : Byte) (rest : List Stimulus),
    State.outputs { s with pending := .edge ⟨false, true, d⟩ :: rest } = outputsOf s.ctrl ∧
      ∃ t, step { s with pending := .edge ⟨false, true, d⟩ :: rest } = .next t ∧ t.outputs = outputsOf d

/-- R61, its rule for the enable: WRITE with bit 7 set enables, WRITE with bit 7 clear and RESET mask. -/
def Obligations.NmiEnabledByWriteMaskedByWriteOrReset : Prop :=
  (∀ (s : State) (d : Byte), ∃ t, exec (.write d) s = .next t ∧ t.outputs.nmiEn = d.getLsbD 7) ∧
  ∀ s : State, ∃ t, exec .reset s = .next t ∧ t.outputs.nmiEn = false

/-- The four queries complete from every state: each adds the value R53 to R56 give its port to the record
of reads and changes nothing else. That record is the model's own (log entry 4). -/
def Obligations.QueriesRecordTheirPortsValue : Prop :=
  ∀ s : State,
    exec .vramAddressIncrement s =
      .next { s with observed := .vramInc (if s.ctrl.getLsbD 2 then 32 else 1) :: s.observed } ∧
    exec .shouldGenerateVblankNmi s =
      .next { s with observed := .nmiEn (s.ctrl.getLsbD 7) :: s.observed } ∧
    exec .backgroundPatternAddress s =
      .next { s with observed := .bgPatAddr (if s.ctrl.getLsbD 4 then 0x1000 else 0x0000) :: s.observed } ∧
    exec .spritePatternAddress s =
      .next { s with observed := .sprPatAddr (if s.ctrl.getLsbD 3 then 0x1000 else 0x0000) :: s.observed }

/-! ### Encoding -/

/-- R42: decoding of a command word is total; RESET wins over WRITE, and an edge with neither is IDLE. -/
def Obligations.CommandDecodingIsTotal : Prop :=
  ∀ w : CommandWord, decode (.cmd w) =
    .ok (if w.getLsbD 9 = true then .reset
      else if w.getLsbD 8 = true then .write (w.extractLsb' 0 8) else .idle)

/-- R40, R41: the command word is `rst : we : din`, nothing of the ports is lost in it, and the byte of a
WRITE is `din` unmodified. -/
def Obligations.CommandWordIsThePorts : Prop :=
  (∀ p : Ports, p.word.getLsbD 9 = p.rst ∧ p.word.getLsbD 8 = p.we ∧ p.word.extractLsb' 0 8 = p.din ∧
    Ports.ofWord p.word = p) ∧
  (∀ w : CommandWord, (Ports.ofWord w).word = w) ∧
  ∀ d : Byte, decodeCommand (Ports.word ⟨false, true, d⟩) = .write d

/-- R44: no command word is illegal, and the ignored bits (`we` and `din` under RESET, `din` under IDLE)
have no effect on the next state or on any output. -/
def Obligations.NoIllegalCommandAndIgnoredBitsIgnored : Prop :=
  ∀ (s : State) (rest : List Stimulus),
    (∀ w : CommandWord, ∃ t, step { s with pending := .edge (Ports.ofWord w) :: rest } = .next t) ∧
    (∀ (we we' : Bool) (d d' : Byte), step { s with pending := .edge ⟨true, we, d⟩ :: rest } =
      step { s with pending := .edge ⟨true, we', d'⟩ :: rest }) ∧
    (∀ d d' : Byte, step { s with pending := .edge ⟨false, false, d⟩ :: rest } =
      step { s with pending := .edge ⟨false, false, d'⟩ :: rest }) ∧
    ∀ p : Ports, State.outputs { s with pending := .edge p :: rest } = s.outputs

/-- R45: the meaning of a command word does not depend on `ctrl`, nor on anything else of the state. -/
def Obligations.DecodingDoesNotDependOnTheState : Prop :=
  ∀ w : CommandWord, ∃ i : Instr, ∀ (s : State) (rest : List Stimulus),
    step { s with pending := .edge (Ports.ofWord w) :: rest } = exec i { s with pending := rest }

/-- Decoding the word of any instruction gives the instruction back, with every operand. The words of the
queries are the model's choice (log entry 5). -/
def Obligations.DecodeOfEncodeIsTheInstruction : Prop :=
  ∀ i : Instr, i.wellFormed = true ∧ decode (encode i) = .ok i

/-- The command word fits one row of the opcode table and no other, that of the command it decodes to
(R42 against the opcode map). -/
def Obligations.CommandWordFitsExactlyOneRow : Prop :=
  ∀ (w : CommandWord) (i : Instr),
    rowFits (tableRow i) (.cmd w) = true ↔ tableRow i = tableRow (decodeCommand w)

/-- An OUT word that decodes fits the row of the query it decodes to and no other row. That a word with
several select bits is rejected is the model's choice (log entry 5). -/
def Obligations.SelectWordFitsExactlyOneRow : Prop :=
  ∀ (w : Byte) (i j : Instr), decode (.out w) = .ok i →
    (rowFits (tableRow j) (.out w) = true ↔ tableRow j = tableRow i)

/-- Words of the opcode map and of 95_test_vectors.md C3 to C11, read by the decoder; for the OUT rows the
words are the masks over `ctrl`, the model's choice (log entry 5). -/
def Obligations.SampleWordsDecode : Prop :=
  decodeTableWord 16 0b10_0000_0000 = some .reset ∧
  decodeTableWord 16 0b11_1111_1111 = some .reset ∧
  decodeTableWord 16 0b01_0101_0101 = some (.write 0x55) ∧
  decodeTableWord 16 0b01_1111_1111 = some (.write 0xFF) ∧
  decodeTableWord 16 0b00_0000_0000 = some .idle ∧
  decodeTableWord 16 0b00_1100_0011 = some .idle ∧
  decodeTableWord 8 0b0000_0100 = some .vramAddressIncrement ∧
  decodeTableWord 8 0b1000_0000 = some .shouldGenerateVblankNmi ∧
  decodeTableWord 8 0b0001_0000 = some .backgroundPatternAddress ∧
  decodeTableWord 8 0b0000_1000 = some .spritePatternAddress

/-! ### The step -/

/-- A step runs the instruction that the next word decodes to, in the state with that stimulus taken and
nothing else changed (log entry 2). -/
def Obligations.StepRunsTheDecodedInstruction : Prop :=
  ∀ (s : State) (e : Stimulus) (rest : List Stimulus) (i : Instr), decode e.codeWord = .ok i →
    step { s with pending := e :: rest } = exec i { s with pending := rest }

/-- An opcode-table word that decodes is what the next step runs once it is placed (log entries 2, 6). -/
def Obligations.PlacedTableWordIsRunNext : Prop :=
  ∀ (s : State) (nbits w : Nat) (i : Instr), decodeTableWord nbits w = some i →
    step (s.withFetchWord nbits w) = exec i s

/-- When the model refuses: exactly when nothing is pending, or the pending select word names no port or
several, under the name of each (R66, log entries 3 and 5). -/
def Obligations.StepRefusesOnlyWhatIsNotGiven : Prop :=
  (∀ s : State, s.pending = [] → step s = .refused .inputsNotGiven) ∧
  (∀ (s : State) (sel : Byte) (rest : List Stimulus), sel &&& decodedBits = 0x00 →
    step { s with pending := .sample sel :: rest } = .refused .selectsNoPort) ∧
  (∀ (s : State) (sel : Byte) (rest : List Stimulus),
    (∃ p q : OutputPort, p ≠ q ∧ (selectField p).get sel = true ∧ (selectField q).get sel = true) →
    step { s with pending := .sample sel :: rest } = .refused .selectsSeveralPorts) ∧
  ∀ s : State, (∃ t, step s = .next t) ↔ ∃ e rest, s.pending = e :: rest ∧ e.legal = true

/-- R59: every command and every output is total, and no step raises an exception. -/
def Obligations.CommandsAndOutputsAreTotal : Prop :=
  (∀ (s : State) (p : Ports) (rest : List Stimulus), ∃ t, step { s with pending := .edge p :: rest } = .next t) ∧
  (∀ (s : State) (i : Instr), ∃ t, exec i s = .next t) ∧
  ∀ (s : State) (r : Fault), step s ≠ .fault r

/-- For the edges among what is pending, R72 and R73: each command takes one edge, and a command may follow
any other at the next edge, with no spacing and no stop. The rest is the model's own: that inputs stand
in the state (log entry 2), that a read of a port is a step too (log entry 1), and which select words are
legal, those with exactly one select bit (log entry 5). So k legal stimuli are run through in k steps. -/
def Obligations.LegalStimuliRunWithoutAStop : Prop :=
  ∀ (k : Nat) (s : State), s.wellDriven = true → k ≤ s.pending.length →
    SafeRun k s ∧ ∀ t, Host.Core.run Sys2Proof.core k s = .next t → t.pending = s.pending.drop k

/-- The machine is the Moore machine of R12 and R36: any sequence of edges and reads of ports leaves the
register, and gives the readers the values, that the spec's step and output functions give. The record of
reads and the order of reads among edges are the model's own (log entries 1 and 4), and so are the inputs
held in the state (log entry 2) and the word that names a port (log entry 5). -/
def Obligations.MachineRefinesTheMooreMachine : Prop :=
  ∀ (es : List Event) (s : State) (rest : List Stimulus),
    Host.Core.run Sys2Proof.core es.length { s with pending := es.map Event.stimulus ++ rest } =
      .next { ctrl := (mooreRun s.ctrl s.observed es).1, pending := rest,
              observed := (mooreRun s.ctrl s.observed es).2 }

/-- R26: bits 0, 1, 5 and 6 of `ctrl` reach no reader. Two runs with the same inputs from registers that
differ only in those bits go on together: the same values are read and the outputs stay equal. The inputs
held in the state, the reads as steps and their record are the model's own (log entries 1, 2 and 4). -/
def Obligations.UndecodedBitsReachNoReader : Prop :=
  ∀ (k : Nat) (s s' t : State), agreeOnDecodedBits s.ctrl s'.ctrl = true → s.pending = s'.pending →
    s.observed = s'.observed → Host.Core.run Sys2Proof.core k s = .next t →
    ∃ t', Host.Core.run Sys2Proof.core k s' = .next t' ∧ t.observed = t'.observed ∧
      t.pending = t'.pending ∧ t.outputs = t'.outputs ∧ agreeOnDecodedBits t.ctrl t'.ctrl = true

/-- The invariant at power-on: no port value has been read yet. -/
def Obligations.ObservedValuesLegalAtReset : Prop :=
  State.reset.observedLegal = true

/-- The invariant is kept by every step: every value read so far is one its port can have, `vram_inc` 1 or
32 (R53) and a pattern table address 0x0000 or 0x1000 (R55, R56). The record is the model's own (log
entry 4). -/
def Obligations.StepKeepsObservedValuesLegal : Prop :=
  ∀ s t : State, s.observedLegal = true → step s = .next t → t.observedLegal = true

/-! ### Platform and assembler -/

/-- R35, R64: a CPU store to `CTRL_ADDR`, whatever the address is and whoever stores, writes the register;
a store to another address leaves it. What `din` carries at such a store is the model's choice (log
entry 7). -/
def Obligations.StoreReachesTheRegisterAtItsAddressOnly : Prop :=
  (∀ (s : State) (addr : Nat) (d : Byte),
    step (s.cpuStore addr d) = .next { s with ctrl := if addr = Config.ctrlAddr then d else s.ctrl }) ∧
  ∀ (s : State) (ctrlAddr addr : Nat) (d : Byte) (rest : List Stimulus),
    step { s with pending := .edge (decoderPorts ctrlAddr addr d) :: rest } =
      .next { s with ctrl := if addr = ctrlAddr then d else s.ctrl, pending := rest }

/-- R46, the range of each operand and the words: an operand in range assembles to a word that decodes to
the command it names, an operand out of range is refused, and an assertion takes no edge. -/
def Obligations.AssemblerWordsAndRanges : Prop :=
  assembleLine .reset = some [0x200] ∧ assembleLine .idle = some [0x000] ∧
  (∀ imm : Nat, imm ≤ 255 → ∃ w, assembleLine (.write imm) = some [w] ∧
    decodeCommand w = .write (BitVec.ofNat 8 imm) ∧ w.toNat = 0x100 + imm) ∧
  (∀ imm : Nat, 255 < imm → assembleLine (.write imm) = none) ∧
  (∀ w : Nat, w ≤ 0x3FF → ∃ v, assembleLine (.word w) = some [v] ∧ v.toNat = w) ∧
  (∀ w : Nat, 0x3FF < w → assembleLine (.word w) = none) ∧
  ∀ (q : OutputPort) (v : Nat), assembleLine (.expect q v) = some []

/-- R47: `IDLE n` is n lines of IDLE, with n at least 1; `WRITEF` writes the byte whose set fields are
exactly the named ones, 0x00 with none. -/
def Obligations.PseudoInstructionsExpand : Prop :=
  (∀ n : Nat, 1 ≤ n → assembleLine (.idleN n) = assembleProgram (List.replicate n .idle)) ∧
  assembleLine (.idleN 0) = none ∧
  assembleLine (.writef []) = assembleLine (.write 0x00) ∧
  ∀ fs : List Field, ∃ w v, assembleLine (.writef fs) = some [w] ∧ decodeCommand w = .write v ∧
    assembleLine (.write v.toNat) = some [w] ∧ ∀ f : Field, f.get v = true ↔ f ∈ fs
end

