-- ==== Sys2Proof/Laws/Flags.lean ====
section
/-! SUPPORT. The bit-field extractor: fields against masks, zero and union. -/

namespace Sys2Proof

@[simp] theorem Field.get_zero (f : Field) : f.get 0#8 = false := by
  cases f <;> rfl

theorem Field.get_or (f : Field) (a b : Byte) : f.get (a ||| b) = (f.get a || f.get b) := by
  simp [Field.get]

/-- A field's mask holds that field and no other. -/
theorem Field.get_mask (f g : Field) : f.get g.mask = decide (f = g) := by
  cases f <;> cases g <;> decide

/-- A field of `a & m` is the field of `a`, where `m` has the field's bit. -/
theorem Field.get_and (f : Field) (a m : Byte) : f.get (a &&& m) = (f.get a && f.get m) := by
  simp [Field.get]

/-- The byte with one bit set, written as R52 writes it. -/
theorem Field.mask_eq_shift (f : Field) : f.mask = 1#8 <<< f.index := by
  cases f <;> decide

end Sys2Proof
end

