-- ==== Sys2Proof/Laws/Assembler.lean ====
section
/-! SUPPORT. The assembler's lines and the address decoder's levels, one lemma per case. -/

namespace Sys2Proof.Machine

/-- A well-formed line assembles to its words. -/
theorem assembleLine_of_wellFormed {l : AsmLine} (h : l.wellFormed = true) : assembleLine l = some (lineWords l) := by
  simp only [assembleLine, h]

/-- An ill-formed line is refused. -/
theorem assembleLine_of_illFormed {l : AsmLine} (h : l.wellFormed = false) : assembleLine l = none := by
  simp only [assembleLine, h]

/-- A program assembles line by line. -/
theorem assembleProgram_cons {l : AsmLine} {ls : List AsmLine} {ws rest : List CommandWord}
    (h : assembleLine l = some ws) (hr : assembleProgram ls = some rest) :
    assembleProgram (l :: ls) = some (ws ++ rest) := by
  simp only [assembleProgram, h, hr]

/-- The word of `WRITE d` decodes to it, with every bit of `d` in its place. -/
theorem decodeCommand_writeWord (d : Byte) : decodeCommand (0x100 ||| d.setWidth 10) = .write d := by
  revert d
  decide

/-- A field of the byte of named fields: the field is the first one named, or among the others. -/
theorem get_fieldsByte_cons (f g : Field) (gs : List Field) :
    f.get (fieldsByte (g :: gs)) = (decide (f = g) || f.get (fieldsByte gs)) := by
  rw [fieldsByte, Field.get_or, Field.get_mask]

@[simp] theorem decoderPorts_rst (c a : Nat) (d : Byte) : (decoderPorts c a d).rst = false := rfl
@[simp] theorem decoderPorts_we (c a : Nat) (d : Byte) : (decoderPorts c a d).we = decide (a = c) := rfl
@[simp] theorem decoderPorts_din (c a : Nat) (d : Byte) : (decoderPorts c a d).din = d := rfl

end Sys2Proof.Machine
end

