-- ==== Sys2Proof/Laws/Decode.lean ====
section
/-! SUPPORT. The command word against the ports it is made of, and what the decoder answers. -/

namespace Sys2Proof.Machine

theorem Ports.word_rst (p : Ports) : p.word.getLsbD 9 = p.rst := by
  obtain ⟨r, w, d⟩ := p
  cases r <;> cases w <;> revert d <;> decide

theorem Ports.word_we (p : Ports) : p.word.getLsbD 8 = p.we := by
  obtain ⟨r, w, d⟩ := p
  cases r <;> cases w <;> revert d <;> decide

theorem Ports.word_din (p : Ports) : commandData p.word = p.din := by
  obtain ⟨r, w, d⟩ := p
  cases r <;> cases w <;> revert d <;> decide

/-- The command an edge gives, by its ports (R40, R42). -/
theorem decodeCommand_word (p : Ports) :
    decodeCommand p.word = if p.rst then .reset else if p.we then .write p.din else .idle := by
  simp only [decodeCommand, Ports.word_rst, Ports.word_we, Ports.word_din]

/-- The select mask of a port decodes to its query. -/
theorem decodeSelect_mask (q : OutputPort) : decodeSelect (selectField q).mask = .ok (queryOf q) := by
  cases q <;> rfl

/-- An OUT word that decodes gives the query of some port. -/
theorem decodeSelect_ok {w : Byte} {i : Instr} (h : decodeSelect w = .ok i) :
    ∃ q : OutputPort, i = queryOf q := by
  unfold decodeSelect at h
  split at h
  · exact ⟨.vramInc, by cases h; rfl⟩
  · exact ⟨.sprPatAddr, by cases h; rfl⟩
  · exact ⟨.bgPatAddr, by cases h; rfl⟩
  · exact ⟨.nmiEn, by cases h; rfl⟩
  · cases h
  · cases h

end Sys2Proof.Machine
end

