-- ==== Sys2Proof/Laws/Outputs.lean ====
section
/-! SUPPORT. The multiplexer and the four ports: which bit each reads and which values it takes. -/

namespace Sys2Proof.Machine

@[simp] theorem mux_true {α : Type} (a b : α) : mux true a b = a := rfl
@[simp] theorem mux_false {α : Type} (a b : α) : mux false a b = b := rfl

/-- A multiplexer gives one of its two inputs. -/
theorem mux_cases (c : Bool) {α : Type} (a b : α) : mux c a b = a ∨ mux c a b = b := by
  cases c
  · exact .inr rfl
  · exact .inl rfl

/-- The two registers hold the same select bits. -/
theorem get_eq_of_agree {c c' : Byte} (h : agreeOnDecodedBits c c' = true) (q : OutputPort) :
    (selectField q).get c = (selectField q).get c' := by
  have hd : (selectField q).get decodedBits = true := by cases q <;> decide
  have h' : c &&& decodedBits = c' &&& decodedBits := by simpa [agreeOnDecodedBits] using h
  have := congrArg (selectField q).get h'
  simpa [Field.get_and, hd] using this

/-- What a consumer reads depends on the port's select bit alone. -/
theorem observe_eq_of_get_eq {q : OutputPort} {c c' : Byte}
    (h : (selectField q).get c = (selectField q).get c') : observe q c = observe q c' := by
  cases q <;> simp only [selectField] at h <;> simp [observe, vramInc, nmiEn, bgPatAddr, sprPatAddr, h]

/-- Every port value is one the port can have. -/
theorem observe_legal (q : OutputPort) (c : Byte) : (observe q c).legal = true := by
  cases q with
  | vramInc =>
    change Observation.legal (.vramInc (mux _ vramIncWhenSet vramIncWhenClear)) = true
    rcases mux_cases (Field.vramAddIncrement.get c) vramIncWhenSet vramIncWhenClear with h | h <;> rw [h] <;> rfl
  | nmiEn => rfl
  | bgPatAddr =>
    change Observation.legal (.bgPatAddr (mux _ patternAddrWhenSet patternAddrWhenClear)) = true
    rcases mux_cases (Field.bgPatternAddr.get c) patternAddrWhenSet patternAddrWhenClear with h | h <;> rw [h] <;> rfl
  | sprPatAddr =>
    change Observation.legal (.sprPatAddr (mux _ patternAddrWhenSet patternAddrWhenClear)) = true
    rcases mux_cases (Field.spritePatternAddr.get c) patternAddrWhenSet patternAddrWhenClear with h | h <;> rw [h] <;> rfl

end Sys2Proof.Machine
end

