-- ==== Sys2Proof/Laws/PerInstr.lean ====
section
/-! SUPPORT. The family EncodingFitsRow: the encoding of an instruction fits its row of the opcode table
(spec 30_encoding.md section 2), and the instruction is well-formed. -/

namespace Sys2Proof.Laws.EncodingFitsRow

/-- The instruction's word fits the mask and match of its row. -/
def Statement (i : Instr) : Prop :=
  rowFits (tableRow i) (encode i) = true ∧ i.wellFormed = true

theorem reset : Statement .reset := by unfold Statement; decide

theorem write (d : Byte) : Statement (.write d) := by
  refine ⟨?_, rfl⟩
  have h : ∀ d : Byte, rowFits (tableRow (.write d)) (encode (.write d)) = true := by decide
  exact h d

theorem idle : Statement .idle := by unfold Statement; decide

theorem vramAddressIncrement : Statement .vramAddressIncrement := by unfold Statement; decide

theorem shouldGenerateVblankNmi : Statement .shouldGenerateVblankNmi := by unfold Statement; decide

theorem backgroundPatternAddress : Statement .backgroundPatternAddress := by unfold Statement; decide

theorem spritePatternAddress : Statement .spritePatternAddress := by unfold Statement; decide

end Sys2Proof.Laws.EncodingFitsRow
end

