-- ==== Sys2Proof/Laws/State.lean ====
section
/-! SUPPORT. One lemma per field per update of State, and what the shared operations of Ops.lean do. -/

namespace Sys2Proof.Machine

@[simp] theorem State.writeCtrl_ctrl (s : State) (v : Byte) : (s.writeCtrl v).ctrl = v := rfl
@[simp] theorem State.writeCtrl_pending (s : State) (v : Byte) : (s.writeCtrl v).pending = s.pending := rfl
@[simp] theorem State.writeCtrl_observed (s : State) (v : Byte) : (s.writeCtrl v).observed = s.observed := rfl

@[simp] theorem State.readPort_ctrl (s : State) (q : OutputPort) : (s.readPort q).ctrl = s.ctrl := rfl
@[simp] theorem State.readPort_pending (s : State) (q : OutputPort) : (s.readPort q).pending = s.pending := rfl
@[simp] theorem State.readPort_observed (s : State) (q : OutputPort) :
    (s.readPort q).observed = observe q s.ctrl :: s.observed := rfl

@[simp] theorem State.present_ctrl (s : State) (e : Stimulus) : (s.present e).ctrl = s.ctrl := rfl
@[simp] theorem State.present_pending (s : State) (e : Stimulus) : (s.present e).pending = e :: s.pending := rfl
@[simp] theorem State.present_observed (s : State) (e : Stimulus) : (s.present e).observed = s.observed := rfl

@[simp] theorem State.loadWords_ctrl (s : State) (ws : List CommandWord) : (s.loadWords ws).ctrl = s.ctrl := rfl
@[simp] theorem State.loadWords_observed (s : State) (ws : List CommandWord) :
    (s.loadWords ws).observed = s.observed := rfl

@[simp] theorem State.cpuStore_ctrl (s : State) (a : Nat) (d : Byte) : (s.cpuStore a d).ctrl = s.ctrl := rfl

@[simp] theorem State.reset_ctrl : State.reset.ctrl = 0x00 := rfl
@[simp] theorem State.reset_pending : State.reset.pending = [] := rfl
@[simp] theorem State.reset_observed : State.reset.observed = [] := rfl

@[simp] theorem State.outputs_eq (s : State) : s.outputs = outputsOf s.ctrl := rfl

/-- Writing back what is held changes nothing (R49, R50). -/
theorem State.writeCtrl_self (s : State) : s.writeCtrl s.ctrl = s := rfl

/-- Taking a stimulus succeeds exactly on a non-empty list, and takes its head only. -/
theorem State.takeStimulus_eq_some {s s' : State} {e : Stimulus} :
    s.takeStimulus = some (e, s') ↔ ∃ rest, s.pending = e :: rest ∧ s' = { s with pending := rest } := by
  unfold State.takeStimulus
  cases s.pending with
  | nil => simp
  | cons e' rest =>
    constructor
    · intro h
      cases h
      exact ⟨rest, rfl, rfl⟩
    · rintro ⟨r, h, rfl⟩
      cases h
      rfl

/-- Nothing is taken exactly when nothing is pending. -/
theorem State.takeStimulus_eq_none {s : State} : s.takeStimulus = none ↔ s.pending = [] := by
  unfold State.takeStimulus
  cases s.pending <;> simp

end Sys2Proof.Machine
end

