-- ==== Sys2Proof/Laws/Step.lean ====
section
/-! SUPPORT. What one step can do, said once, and how a run is made of steps. -/

namespace Sys2Proof.Machine

/-- A query reads its port. -/
theorem exec_queryOf (q : OutputPort) (s : State) : exec (queryOf q) s = .next (s.readPort q) := by
  cases q <;> rfl

/-- A command writes the register with what the block's step function gives (R48 to R50). -/
theorem exec_decodeCommand (p : Ports) (s : State) :
    exec (decodeCommand p.word) s = .next (s.writeCtrl (blockNext s.ctrl p)) := by
  rw [decodeCommand_word]
  unfold blockNext
  split
  · rfl
  · split <;> rfl

/-- With nothing pending the model refuses. -/
theorem step_of_nothing_pending {s : State} (h : s.pending = []) : step s = .refused .inputsNotGiven := by
  simp only [step, State.takeStimulus_eq_none.mpr h]

/-- With a stimulus pending whose word decodes, the step runs the instruction. -/
theorem step_of_decode_ok {s : State} {e : Stimulus} {rest : List Stimulus} {i : Instr}
    (h : s.pending = e :: rest) (hd : decode e.codeWord = .ok i) :
    step s = exec i { ctrl := s.ctrl, pending := rest, observed := s.observed } := by
  simp only [step, State.takeStimulus_eq_some.mpr ⟨rest, h, rfl⟩, hd]

/-- With a stimulus pending whose word does not decode, the step refuses by name. -/
theorem step_of_decode_error {s : State} {e : Stimulus} {rest : List Stimulus} {r : DecodeError}
    (h : s.pending = e :: rest) (hd : decode e.codeWord = .error r) : step s = .refused (refusalOf r) := by
  simp only [step, State.takeStimulus_eq_some.mpr ⟨rest, h, rfl⟩, hd]

/-- An edge. -/
theorem step_of_edge {s : State} {p : Ports} {rest : List Stimulus} (h : s.pending = .edge p :: rest) :
    step s = .next { ctrl := blockNext s.ctrl p, pending := rest, observed := s.observed } := by
  rw [step_of_decode_ok (i := decodeCommand p.word) h rfl]
  exact exec_decodeCommand p _

/-- A read of a port named by its own select mask. -/
theorem step_of_read {s : State} {q : OutputPort} {rest : List Stimulus}
    (h : s.pending = .sample (selectField q).mask :: rest) :
    step s = .next { ctrl := s.ctrl, pending := rest, observed := observe q s.ctrl :: s.observed } := by
  rw [step_of_decode_ok h (decodeSelect_mask q)]
  exact exec_queryOf q _

/-- Everything a step that answers a next state can have done: an edge wrote the register, or a port was
read and the register kept. -/
theorem step_cases {s t : State} (h : step s = .next t) :
    (∃ p rest, s.pending = .edge p :: rest ∧
      t = { ctrl := blockNext s.ctrl p, pending := rest, observed := s.observed }) ∨
    (∃ sel q rest, s.pending = .sample sel :: rest ∧ decodeSelect sel = .ok (queryOf q) ∧
      t = { ctrl := s.ctrl, pending := rest, observed := observe q s.ctrl :: s.observed }) := by
  cases hp : s.pending with
  | nil => rw [step_of_nothing_pending hp] at h; cases h
  | cons e rest =>
    cases e with
    | edge p =>
      rw [step_of_edge hp] at h
      cases h
      exact .inl ⟨p, rest, rfl, rfl⟩
    | sample sel =>
      cases hd : decodeSelect sel with
      | error r => rw [step_of_decode_error hp hd] at h; cases h
      | ok i =>
        obtain ⟨q, rfl⟩ := decodeSelect_ok hd
        rw [step_of_decode_ok hp hd, exec_queryOf] at h
        cases h
        exact .inr ⟨sel, q, rest, rfl, hd, rfl⟩

@[simp] theorem run_zero (s : State) : Host.Core.run Sys2Proof.core 0 s = .next s := rfl

/-- A run of any machine, one step at a time: the step answers a next state. -/
theorem run_of_step_next {M : Host.Core} {k : Nat} {s t : M.State} (h : M.step s = .next t) :
    M.run (k + 1) s = M.run k t := by
  change (match M.step s with
    | .next s' => M.run k s'
    | .fault r => .fault r
    | .refused r => .refused r) = _
  rw [h]

/-- A run of any machine, one step at a time: the step refuses. -/
theorem run_of_step_refused {M : Host.Core} {k : Nat} {s : M.State} {r : M.Refusal} (h : M.step s = .refused r) :
    M.run (k + 1) s = .refused r := by
  change (match M.step s with
    | .next s' => M.run k s'
    | .fault r => .fault r
    | .refused r => .refused r) = _
  rw [h]

/-- A run goes on after a step that answers a next state. -/
theorem run_succ_of_step {s t : State} (h : step s = .next t) (k : Nat) :
    Host.Core.run Sys2Proof.core (k + 1) s = Host.Core.run Sys2Proof.core k t :=
  run_of_step_next (M := Sys2Proof.core) h

/-- A run of at least one step that answers a next state begins with a step that does. -/
theorem run_succ_cases {s t : State} {k : Nat} (h : Host.Core.run Sys2Proof.core (k + 1) s = .next t) :
    ∃ u, step s = .next u ∧ Host.Core.run Sys2Proof.core k u = .next t := by
  cases hs : step s with
  | next u => exact ⟨u, rfl, by rw [← run_succ_of_step hs k]; exact h⟩
  | fault r => cases r
  | refused r => cases (run_of_step_refused (M := Sys2Proof.core) (k := k) hs).symm.trans h

end Sys2Proof.Machine
end

