-- ==== Sys2Proof/Tests/Slice0.lean ====
section
/-! SUPPORT. The model's own tests. Expected results are the spec's: 95_test_vectors.md (vectors named in
the comments), the opcode map of 30_encoding.md and the assembler rules R10, R46, R47. Then a witness for
the hypotheses of each statement that has some. -/

namespace Sys2Proof.Tests

open Sys2Proof.Machine

/-- The next state of an outcome. -/
def nextOf : Host.Outcome State Fault Refusal → Option State
  | .next s => some s
  | .fault _ => none
  | .refused _ => none

/-- The refusal of an outcome. -/
def refusalGiven : Host.Outcome State Fault Refusal → Option Refusal
  | .next _ => none
  | .fault _ => none
  | .refused r => some r

/-- `ctrl` after one edge with word `w` from the value `c`. -/
def ctrlAfter (c : Byte) (w : Nat) : Option Byte :=
  (nextOf (step (State.withFetchWord { State.reset with ctrl := c } 16 w))).map State.ctrl

/-- What one read with select word `w` sees when `ctrl` is `c`. -/
def seenAfter (c : Byte) (w : Nat) : Option (List Observation) :=
  (nextOf (step (State.withFetchWord { State.reset with ctrl := c } 8 w))).map State.observed

/-! ### Well-formedness: each check refuses an ill-formed term -/

theorem test_wellFormed_refuses_imm_256 : (AsmLine.write 256).wellFormed = false := by decide
theorem test_wellFormed_refuses_word_0x400 : (AsmLine.word 0x400).wellFormed = false := by decide
theorem test_wellFormed_refuses_idle_0 : (AsmLine.idleN 0).wellFormed = false := by decide
theorem test_wellFormed_takes_bounds :
    (AsmLine.write 255).wellFormed && (AsmLine.word 0x3FF).wellFormed && (AsmLine.idleN 1).wellFormed = true := by
  decide

/-! ### Decoding: the words of R42 written bit by bit, and the masks of R43 -/

theorem test_decode_reset : decodeTableWord 16 0b1_0_00000000 = some .reset := by decide
theorem test_decode_reset_beats_write : decodeTableWord 16 0b1_1_11111111 = some .reset := by decide
theorem test_decode_write_bit_order : decodeTableWord 16 0b0_1_10010110 = some (.write 0x96) := by decide
theorem test_decode_idle_ignores_din : decodeTableWord 16 0b0_0_11111111 = some .idle := by decide
theorem test_decode_vram_address_increment : decodeTableWord 8 0b00000100 = some .vramAddressIncrement := by decide
theorem test_decode_should_generate_vblank_nmi :
    decodeTableWord 8 0b10000000 = some .shouldGenerateVblankNmi := by decide
theorem test_decode_background_pattern_address :
    decodeTableWord 8 0b00010000 = some .backgroundPatternAddress := by decide
theorem test_decode_sprite_pattern_address : decodeTableWord 8 0b00001000 = some .spritePatternAddress := by decide
theorem test_decode_refuses_no_and_several_select_bits :
    decodeTableWord 8 0b01100011 = none ∧ decodeTableWord 8 0b10000100 = none := by decide
theorem test_decode_refuses_bits_above_the_word : decodeTableWord 16 0x400 = none := by decide

/-! ### The commands: vectors C1, C3, C7, C6, C10, C11 -/

theorem test_reset_from_all_ones : ctrlAfter 0xFF 0x200 = some 0x00 := by decide
theorem test_reset_beats_write : ctrlAfter 0x5A 0x3FF = some 0x00 := by decide
theorem test_write_overwrites : ctrlAfter 0xAA 0x155 = some 0x55 := by decide
theorem test_write_zero_clears : ctrlAfter 0xFF 0x100 = some 0x00 := by decide
theorem test_idle_ignores_din : ctrlAfter 0x90 0x0FF = some 0x90 := by decide
theorem test_idle_keeps_against_complement : ctrlAfter 0x3C 0x0C3 = some 0x3C := by decide

/-! ### The queries: vectors OC1, OC2, OC5, OC3, OC4 and the worked examples of R54 to R56 -/

theorem test_vram_increment_all_other_bits : seenAfter 0xFB 0x04 = some [.vramInc 1] := by decide
theorem test_vram_increment_only_bit : seenAfter 0x04 0x04 = some [.vramInc 32] := by decide
theorem test_nmi_all_other_bits : seenAfter 0x7F 0x80 = some [.nmiEn false] := by decide
theorem test_nmi_only_bit : seenAfter 0x80 0x80 = some [.nmiEn true] := by decide
theorem test_bg_all_other_bits : seenAfter 0xEF 0x10 = some [.bgPatAddr 0x0000] := by decide
theorem test_bg_only_bit : seenAfter 0x10 0x10 = some [.bgPatAddr 0x1000] := by decide
theorem test_spr_all_other_bits : seenAfter 0xF7 0x08 = some [.sprPatAddr 0x0000] := by decide
theorem test_spr_only_bit : seenAfter 0x08 0x08 = some [.sprPatAddr 0x1000] := by decide

/-- Vectors O2, O7, O9, O16: the four outputs together, with the undecoded bits clear and set. -/
theorem test_outputs_rows :
    outputsOf 0x04 = ⟨32, false, 0x0000, 0x0000⟩ ∧ outputsOf 0x67 = ⟨32, false, 0x0000, 0x0000⟩ ∧
    outputsOf 0x18 = ⟨1, false, 0x1000, 0x1000⟩ ∧ outputsOf 0x7B = ⟨1, false, 0x1000, 0x1000⟩ ∧
    outputsOf 0x80 = ⟨1, true, 0x0000, 0x0000⟩ ∧ outputsOf 0xE3 = ⟨1, true, 0x0000, 0x0000⟩ ∧
    outputsOf 0x9C = ⟨32, true, 0x1000, 0x1000⟩ ∧ outputsOf 0xFF = ⟨32, true, 0x1000, 0x1000⟩ := by decide

/-- The timing vector 2.3: the old value before the edge. -/
theorem test_no_bypass :
    (State.withFetchWord State.reset 16 0x104).outputs = ⟨1, false, 0x0000, 0x0000⟩ := by decide

/-- No input is given at reset. -/
theorem test_reset_has_no_input : refusalGiven (step State.reset) = some .inputsNotGiven := by decide

/-! ### The assembler: R10, R46, R47 and program P2 -/

theorem test_parse_literals :
    parseLiteral "0b1010_1010".toList = some 0xAA ∧ parseLiteral "0x3c".toList = some 60 ∧
    parseLiteral "255".toList = some 255 ∧ parseLiteral "0b".toList = none ∧
    parseLiteral "0b12".toList = none := by decide
theorem test_parse_writef :
    parseLine "WRITEF GENERATE_NMI|BG_PATTERN_ADDR    ; = WRITE 0x90".toList =
      some (.writef [.generateNmi, .bgPatternAddr]) := by decide
theorem test_assemble_writef : assembleLine (.writef [.generateNmi, .bgPatternAddr]) = some [0x190] := by decide
theorem test_parse_second_names :
    parseProgram ["create", "update 4", "NOP", ".word 0x0A5", "; only a comment"] =
      some [.reset, .write 4, .idle, .word 0x0A5, .blank] := by decide
theorem test_parse_p2 :
    parseProgram ["WRITE 0b1010_1010    ; 0x1AA", "WRITE 0b0101_0101    ; 0x155", "EXPECT vram_inc == 32"] =
      some [.write 0xAA, .write 0x55, .expect .vramInc 32] := by decide
theorem test_p2_passes : programPasses [.write 0xAA, .write 0x55, .expect .vramInc 32] State.reset = true := by
  decide

/-! ### Witnesses: the hypotheses of each statement that has some are met together -/

theorem test_witness_OnlyResetAndWriteChangeTheRegister :
    (∃ (s t : State), exec .reset s = .next t ∧ t.ctrl ≠ s.ctrl) ∧
    ∃ (s t : State), step s = .next t ∧ t.ctrl ≠ s.ctrl :=
  ⟨⟨⟨0xFF, [], []⟩, _, rfl, by decide⟩,
    ⟨⟨0xFF, [.edge ⟨false, true, 0x01⟩], []⟩, _, step_of_edge rfl, by decide⟩⟩

theorem test_witness_EdgeComputesTheNextRegister :
    ∃ (s t : State), step { s with pending := [.sample 0x04] } = .next t :=
  ⟨State.reset, _, step_of_read (q := .vramInc) rfl⟩

theorem test_witness_WriteReplacesTheWholeRegister : ∃ (s t : State), exec (.write 0x55) s = .next t :=
  ⟨⟨0xAA, [], []⟩, _, rfl⟩

theorem test_witness_ReadsAndRepeatedWritesHaveNoSideEffect :
    ∃ (s t : State), exec (.write 0xFF) s = .next t :=
  ⟨⟨0x00, [], []⟩, _, rfl⟩

theorem test_witness_FieldsAreTheBitsOfTheRegister :
    (0x00 : Byte).getLsbD 2 = (0x63 : Byte).getLsbD 2 ∧ (0x00 : Byte).getLsbD 3 = (0x63 : Byte).getLsbD 3 ∧
    (0x00 : Byte).getLsbD 4 = (0x63 : Byte).getLsbD 4 ∧ (0x00 : Byte).getLsbD 7 = (0x63 : Byte).getLsbD 7 := by
  decide

/-- One pair for each clause, equal at the select bit and different at every other. -/
theorem test_witness_EachOutputDependsOnItsSelectBitOnly :
    (0x04 : Byte).getLsbD 2 = (0xFF : Byte).getLsbD 2 ∧ (0x80 : Byte).getLsbD 7 = (0xFF : Byte).getLsbD 7 ∧
    (0xEF : Byte).getLsbD 4 = (0x00 : Byte).getLsbD 4 ∧ (0xF7 : Byte).getLsbD 3 = (0x00 : Byte).getLsbD 3 := by
  decide

theorem test_witness_SelectWordFitsExactlyOneRow : decode (.out 0x67) = .ok .vramAddressIncrement := by rfl

theorem test_witness_StepRunsTheDecodedInstruction :
    decode (Stimulus.edge ⟨true, true, 0xFF⟩).codeWord = .ok .reset ∧
    decode (Stimulus.sample 0x08).codeWord = .ok .spritePatternAddress := ⟨rfl, rfl⟩

theorem test_witness_PlacedTableWordIsRunNext :
    decodeTableWord 16 0x1FF = some (.write 0xFF) ∧ decodeTableWord 8 0x10 = some .backgroundPatternAddress := by
  decide

theorem test_witness_StepRefusesOnlyWhatIsNotGiven :
    State.reset.pending = [] ∧ (0x63 : Byte) &&& decodedBits = 0x00 ∧
    (∃ p q : OutputPort, p ≠ q ∧ (selectField p).get 0x84 = true ∧ (selectField q).get 0x84 = true) :=
  ⟨rfl, by decide, .vramInc, .nmiEn, by decide, by decide, by decide⟩

theorem test_witness_LegalStimuliRunWithoutAStop :
    ∃ s : State, s.wellDriven = true ∧ 2 ≤ s.pending.length ∧
      ∃ t, Host.Core.run Sys2Proof.core 2 s = .next t :=
  ⟨⟨0x00, [.edge ⟨false, true, 0x04⟩, .sample 0x04], []⟩, by decide, by decide, _, by
    rw [run_succ_of_step (step_of_edge rfl), run_succ_of_step (step_of_read (q := .vramInc) rfl)]; rfl⟩

theorem test_witness_UndecodedBitsReachNoReader :
    ∃ s s' t : State, s.ctrl ≠ s'.ctrl ∧ agreeOnDecodedBits s.ctrl s'.ctrl = true ∧ s.pending = s'.pending ∧
      s.observed = s'.observed ∧ Host.Core.run Sys2Proof.core 1 s = .next t :=
  ⟨⟨0x00, [.sample 0x80], []⟩, ⟨0x63, [.sample 0x80], []⟩, _, by decide, by decide, rfl, rfl, by
    rw [run_succ_of_step (step_of_read (q := .nmiEn) rfl)]; rfl⟩

theorem test_witness_StepKeepsObservedValuesLegal :
    ∃ s t : State, s.observedLegal = true ∧ step s = .next t :=
  ⟨⟨0x10, [.sample 0x10], [.vramInc 32]⟩, _, by decide, step_of_read (q := .bgPatAddr) rfl⟩

/-- The bounds of each range of the assembler, and the first value past it. -/
theorem test_witness_AssemblerWordsAndRanges :
    (255 ≤ 255 ∧ 255 < 256) ∧ ((0x3FF : Nat) ≤ 0x3FF ∧ 0x3FF < 0x400) := by decide

theorem test_witness_PseudoInstructionsExpand : 1 ≤ 1 ∧ assembleLine (.idleN 1) = some [0x000] := by decide

end Sys2Proof.Tests
end

namespace Sys2Proof.Machine

/-! ### Scope: one edge, one read, and the run as a Moore machine -/

/-- The port levels of WRITE d give `d` (R49). -/
@[simp] theorem blockNext_write (c d : Byte) : blockNext c ⟨false, true, d⟩ = d := rfl

/-- A step at a pending read of a port, by whatever select word, keeps the register (R12). -/
theorem step_sample_keeps_ctrl {s t : State} {sel : Byte} {rest : List Stimulus}
    (hp : s.pending = .sample sel :: rest) (h : step s = .next t) : t.ctrl = s.ctrl := by
  rcases step_cases h with ⟨p, r, hedge, -⟩ | ⟨w, q, r, -, -, rfl⟩
  · rw [hp] at hedge
    cases hedge
  · rfl

/-- The Moore machine takes its events one at a time. -/
theorem mooreRun_cons (c : Byte) (seen : List Observation) (e : Event) (es : List Event) :
    mooreRun c seen (e :: es) = mooreRun (mooreRun c seen [e]).1 (mooreRun c seen [e]).2 es := by
  cases e with
  | edge p => rfl
  | read q => rfl

/-- The commuting square of one event: the machine's step at its stimulus is the Moore machine's. -/
theorem step_of_event {s : State} {e : Event} {rest : List Stimulus} (h : s.pending = e.stimulus :: rest) :
    step s = .next { ctrl := (mooreRun s.ctrl s.observed [e]).1, pending := rest,
                     observed := (mooreRun s.ctrl s.observed [e]).2 } := by
  cases e with
  | edge p => exact step_of_edge h
  | read q => exact step_of_read h

/-- A run over a sequence of events, from any register and record, is the Moore machine's run. -/
theorem run_events (es : List Event) (c : Byte) (seen : List Observation) (rest : List Stimulus) :
    Host.Core.run Sys2Proof.core es.length
        ({ ctrl := c, pending := es.map Event.stimulus ++ rest, observed := seen } : State) =
      .next { ctrl := (mooreRun c seen es).1, pending := rest, observed := (mooreRun c seen es).2 } := by
  induction es generalizing c seen with
  | nil => rfl
  | cons e es ih =>
    rw [List.length_cons, List.map_cons, List.cons_append, run_succ_of_step (step_of_event rfl),
      mooreRun_cons c seen e es]
    exact ih _ _

/-- Settles O37: the run over the events, which is an induction on them. -/
theorem machineRefinesTheMooreMachine : Obligations.MachineRefinesTheMooreMachine :=
  fun es s rest => run_events es s.ctrl s.observed rest

/-- Settles O8: the rule of an edge, and the register kept by a read. -/
theorem edgeComputesTheNextRegister : Obligations.EdgeComputesTheNextRegister := by
  refine ⟨fun _ _ _ => step_of_edge rfl, fun s t sel rest h => ?_⟩
  exact step_sample_keeps_ctrl (s := { s with pending := .sample sel :: rest }) rfl h

/-- Settles O11: the edge of WRITE v reaches v. -/
theorem everyByteIsReached : Obligations.EveryByteIsReached := by
  intro v
  refine ⟨⟨false, true, v⟩, ?_⟩
  rw [step_of_edge rfl, blockNext_write]
  rfl

/-- Settles O32: the rule of a step whose pending word decodes. -/
theorem stepRunsTheDecodedInstruction : Obligations.StepRunsTheDecodedInstruction :=
  fun _ _ _ _ hd => step_of_decode_ok rfl hd

end Sys2Proof.Machine

namespace Sys2Proof.Machine

/-! ### State: what changes the register, and which of its bits reach a reader -/

/-- Registers that give every port's consumer the same value drive the same outputs. -/
theorem outputsOf_eq_of_observe_eq {c c' : Byte} (h : ∀ q, observe q c = observe q c') :
    outputsOf c = outputsOf c' := by
  have hInc : vramInc c = vramInc c' := Observation.vramInc.inj (h .vramInc)
  have hNmi : nmiEn c = nmiEn c' := Observation.nmiEn.inj (h .nmiEn)
  have hBg : bgPatAddr c = bgPatAddr c' := Observation.bgPatAddr.inj (h .bgPatAddr)
  have hSpr : sprPatAddr c = sprPatAddr c' := Observation.sprPatAddr.inj (h .sprPatAddr)
  simp only [outputsOf, hInc, hNmi, hBg, hSpr]

/-- No consumer tells two registers apart that agree on the decoded bits (R26). -/
theorem observe_eq_of_agree {c c' : Byte} (h : agreeOnDecodedBits c c' = true) (q : OutputPort) :
    observe q c = observe q c' :=
  observe_eq_of_get_eq (get_eq_of_agree h q)

/-- Registers that agree on the decoded bits drive the same outputs (R26). -/
theorem outputsOf_eq_of_agree {c c' : Byte} (h : agreeOnDecodedBits c c' = true) : outputsOf c = outputsOf c' :=
  outputsOf_eq_of_observe_eq (observe_eq_of_agree h)

@[simp] theorem agreeOnDecodedBits_self (c : Byte) : agreeOnDecodedBits c c = true :=
  beq_self_eq_true _

/-- What one edge can do to the register, by its ports (R42, R48 to R50). -/
theorem blockNext_cases (c : Byte) (p : Ports) :
    (p.rst = true ∧ blockNext c p = 0x00) ∨ (p.rst = false ∧ p.we = true ∧ blockNext c p = p.din) ∨
      (p.rst = false ∧ p.we = false ∧ blockNext c p = c) := by
  obtain ⟨rst, we, din⟩ := p
  cases rst with
  | true => exact .inl ⟨rfl, rfl⟩
  | false =>
    cases we with
    | true => exact .inr (.inl ⟨rfl, rfl, rfl⟩)
    | false => exact .inr (.inr ⟨rfl, rfl, rfl⟩)

/-- An edge keeps the agreement: it puts the same byte in both registers, or keeps both. -/
theorem blockNext_keeps_agreement {c c' : Byte} (h : agreeOnDecodedBits c c' = true) (p : Ports) :
    agreeOnDecodedBits (blockNext c p) (blockNext c' p) = true := by
  unfold blockNext
  split
  · exact agreeOnDecodedBits_self _
  · split
    · exact agreeOnDecodedBits_self _
    · exact h

/-- The edge of a CPU store: the stored byte at the register's own address, the old value elsewhere. -/
theorem blockNext_decoderPorts (c : Byte) (ctrlAddr addr : Nat) (d : Byte) :
    blockNext c (decoderPorts ctrlAddr addr d) = if addr = ctrlAddr then d else c := by
  simp [blockNext]

/-- A read of a port by any select word that decodes to its query. -/
theorem step_of_query {s : State} {sel : Byte} {q : OutputPort} {rest : List Stimulus}
    (h : s.pending = .sample sel :: rest) (hd : decodeSelect sel = .ok (queryOf q)) :
    step s = .next { ctrl := s.ctrl, pending := rest, observed := observe q s.ctrl :: s.observed } := by
  rw [step_of_decode_ok h hd]
  exact exec_queryOf q _

/-- What each instruction does to the register: RESET and WRITE replace it, the others keep it. -/
theorem exec_ctrl_cases {i : Instr} {s t : State} (h : exec i s = .next t) :
    (i = .reset ∧ t.ctrl = 0x00) ∨ (∃ d, i = .write d ∧ t.ctrl = d) ∨ t.ctrl = s.ctrl := by
  cases i with
  | reset => cases h; exact .inl ⟨rfl, rfl⟩
  | write d => cases h; exact .inr (.inl ⟨d, rfl, rfl⟩)
  | idle => cases h; exact .inr (.inr rfl)
  | vramAddressIncrement => cases h; exact .inr (.inr rfl)
  | shouldGenerateVblankNmi => cases h; exact .inr (.inr rfl)
  | backgroundPatternAddress => cases h; exact .inr (.inr rfl)
  | spritePatternAddress => cases h; exact .inr (.inr rfl)

/-- Two states that no reader tells apart: the same inputs to come, the same values read, and registers
that differ at most in the bits that reach no port. -/
structure SameToReaders (s s' : State) : Prop where
  ctrl : agreeOnDecodedBits s.ctrl s'.ctrl = true
  pending : s.pending = s'.pending
  observed : s.observed = s'.observed

/-- A step that one of two such states takes, the other takes too, and the next states are such again. -/
theorem step_keeps_sameToReaders {s s' t : State} (hs : SameToReaders s s') (h : step s = .next t) :
    ∃ t', step s' = .next t' ∧ SameToReaders t t' := by
  obtain ⟨hctrl, hpend, hobs⟩ := hs
  rcases step_cases h with ⟨p, rest, hp, rfl⟩ | ⟨sel, q, rest, hp, hd, rfl⟩
  · exact ⟨_, step_of_edge (hpend.symm.trans hp), blockNext_keeps_agreement hctrl p, rfl, hobs⟩
  · refine ⟨_, step_of_query (hpend.symm.trans hp) hd, hctrl, rfl, ?_⟩
    exact congrArg₂ List.cons (observe_eq_of_agree hctrl q) hobs

/-- A run of any length that one of two such states takes, the other takes too. -/
theorem run_keeps_sameToReaders {k : Nat} {s s' t : State} (hs : SameToReaders s s')
    (h : Host.Core.run Sys2Proof.core k s = .next t) :
    ∃ t', Host.Core.run Sys2Proof.core k s' = .next t' ∧ SameToReaders t t' := by
  induction k generalizing s s' with
  | zero => cases h; exact ⟨s', rfl, hs⟩
  | succ k ih =>
    obtain ⟨u, hu, hrun⟩ := run_succ_cases h
    obtain ⟨u', hu', hsame⟩ := step_keeps_sameToReaders hs hu
    rw [run_succ_of_step hu']
    exact ih hsame hrun

/-- Settles O38: the two runs stay the same to readers, which is an induction on their length. -/
theorem undecodedBitsReachNoReader : Obligations.UndecodedBitsReachNoReader := by
  intro k s s' t hctrl hpend hobs h
  obtain ⟨t', h', hsame⟩ := run_keeps_sameToReaders ⟨hctrl, hpend, hobs⟩ h
  exact ⟨t', h', hsame.observed, hsame.pending, outputsOf_eq_of_agree hsame.ctrl, hsame.ctrl⟩

/-- Settles O10: of what an instruction, and an edge, can do to the register, the cases that keep it are
excluded. -/
theorem onlyResetAndWriteChangeTheRegister : Obligations.OnlyResetAndWriteChangeTheRegister := by
  refine ⟨fun i s t h hne => ?_, fun s t h hne => ?_⟩
  · rcases exec_ctrl_cases h with hreset | hwrite | hkept
    · exact .inl hreset
    · exact .inr hwrite
    · exact absurd hkept hne
  · rcases step_cases h with ⟨p, rest, hp, rfl⟩ | ⟨sel, q, rest, -, -, rfl⟩
    · refine ⟨p, rest, hp, ?_⟩
      rcases blockNext_cases s.ctrl p with hreset | hwrite | ⟨-, -, hkept⟩
      · exact .inl hreset
      · exact .inr hwrite
      · exact absurd hkept hne
    · exact absurd rfl hne

/-- Settles O1: the reset value, whose fields are all clear, and the meaning of RESET. -/
theorem powerOnAndResetClearTheRegister : Obligations.PowerOnAndResetClearTheRegister :=
  ⟨State.reset_ctrl, fun f => f.get_zero, fun _ => rfl⟩

/-- The nametable select number by the two bits it is made of (R17). -/
theorem nametableSelect_toNat (c : Byte) : (nametableSelect c).toNat =
    2 * (Field.nameTable2.get c).toNat + (Field.nameTable1.get c).toNat := by
  simp only [nametableSelect, BitVec.extractLsb'_toNat, Field.get, Field.index, BitVec.getLsbD,
    Nat.toNat_testBit, Nat.shiftRight_zero]
  omega

/-- Replacing bits 1:0 keeps the decoded bits (R17). -/
theorem agree_of_replaced_nametable_bits (c n : Byte) :
    agreeOnDecodedBits ((c &&& 0xFC) ||| (n &&& 0x03)) c = true := by
  have hkept : 0xFC#8 &&& decodedBits = decodedBits := rfl
  have hnone : 0x03#8 &&& decodedBits = 0#8 := rfl
  simp [agreeOnDecodedBits, BitVec.and_or_distrib_right, BitVec.and_assoc, hkept, hnone]

/-- Settles O14: the number by its bits, and outputs that see the decoded bits only. -/
theorem nametableSelectNumber : Obligations.NametableSelectNumber := by
  refine ⟨fun c => ⟨nametableSelect_toNat c, ?_⟩, fun c n => ?_⟩
  · exact Nat.le_of_lt_succ (nametableSelect c).isLt
  · exact outputsOf_eq_of_agree (agree_of_replaced_nametable_bits c n)

/-- The step at the edge of a CPU store, whatever address the register is mapped at (R24, R35). -/
theorem step_of_store {s : State} {ctrlAddr addr : Nat} {d : Byte} {rest : List Stimulus}
    (h : s.pending = .edge (decoderPorts ctrlAddr addr d) :: rest) :
    step s = .next { ctrl := if addr = ctrlAddr then d else s.ctrl, pending := rest, observed := s.observed } := by
  rw [step_of_edge h, blockNext_decoderPorts]

/-- Settles O41: the step of a store, at `CTRL_ADDR` and at any other value of the parameter. -/
theorem storeReachesTheRegisterAtItsAddressOnly : Obligations.StoreReachesTheRegisterAtItsAddressOnly :=
  ⟨fun _ _ _ => step_of_store rfl, fun _ _ _ _ _ => step_of_store rfl⟩

end Sys2Proof.Machine

namespace Sys2Proof.Machine

/-! ### Memory: the register after a run of edges, and what reads and writes leave alone -/

/-- With edges alone the Moore machine folds the next-register function over them and reads nothing. -/
theorem mooreRun_edges (ps : List Ports) (c : Byte) (seen : List Observation) :
    mooreRun c seen (ps.map Event.edge) = (ps.foldl blockNext c, seen) := by
  induction ps generalizing c with
  | nil => rfl
  | cons p ps ih => exact ih (blockNext c p)

/-- A run over a list of edges leaves the fold of the next-register function, in edge order (R36). -/
theorem run_edges (ps : List Ports) (c : Byte) (seen : List Observation) (rest : List Stimulus) :
    Host.Core.run Sys2Proof.core ps.length
        ({ ctrl := c, pending := ps.map Stimulus.edge ++ rest, observed := seen } : State) =
      .next { ctrl := ps.foldl blockNext c, pending := rest, observed := seen } := by
  have hstimuli : (ps.map Event.edge).map Event.stimulus = ps.map Stimulus.edge := List.map_map
  have hrun := run_events (ps.map Event.edge) c seen rest
  rwa [hstimuli, List.length_map, mooreRun_edges] at hrun

/-- Settles O9: the run over the edges, whose outputs are those of the register it leaves. -/
theorem outputsShowTheEdgesSoFar : Obligations.OutputsShowTheEdgesSoFar :=
  fun ps s rest => ⟨_, run_edges ps s.ctrl s.observed rest, rfl, rfl⟩

/-- WRITE `d` answers the register write of `d`, from every state (R49). -/
theorem exec_write (d : Byte) (s : State) : exec (.write d) s = .next (s.writeCtrl d) := rfl

/-- Of two register writes the second alone shows (R32). -/
@[simp] theorem State.writeCtrl_writeCtrl (s : State) (v w : Byte) :
    (s.writeCtrl v).writeCtrl w = s.writeCtrl w := rfl

/-- Settles O12: a query grows the record alone, a write changes the register alone, and of two writes
the second alone shows. -/
theorem readsAndRepeatedWritesHaveNoSideEffect : Obligations.ReadsAndRepeatedWritesHaveNoSideEffect := by
  refine ⟨fun q s => ⟨s.readPort q, exec_queryOf q s, ?_⟩, exec_write, fun d s t h => ?_⟩
  · exact ⟨s.readPort_ctrl q, congrArg outputsOf (s.readPort_ctrl q), s.readPort_pending q⟩
  · rw [exec_write] at h
    cases h
    rw [exec_write, State.writeCtrl_writeCtrl]

end Sys2Proof.Machine

namespace Sys2Proof.Machine

/-! ### Encoding: words, rows and the decoder -/

/-- No check refuses an instruction (R44). -/
@[simp] theorem wellFormed_eq_true (i : Instr) : i.wellFormed = true := by
  cases i <;> rfl

/-- Decoding undoes encoding: a WRITE carries its byte in the word, a query is named by its port's mask. -/
theorem decode_encode (i : Instr) : decode (encode i) = .ok i := by
  cases i with
  | reset => rfl
  | write d => exact congrArg Except.ok (decodeCommand_writeWord d)
  | idle => rfl
  | vramAddressIncrement => exact decodeSelect_mask .vramInc
  | shouldGenerateVblankNmi => exact decodeSelect_mask .nmiEn
  | backgroundPatternAddress => exact decodeSelect_mask .bgPatAddr
  | spritePatternAddress => exact decodeSelect_mask .sprPatAddr

/-- Settles O28: well-formedness of every instruction, and decoding as the inverse of encoding. -/
theorem decodeOfEncodeIsTheInstruction : Obligations.DecodeOfEncodeIsTheInstruction :=
  fun i => ⟨wellFormed_eq_true i, decode_encode i⟩

/-- The request bits of a command word, as the masks of the WRITE and IDLE rows leave them. -/
theorem and_requestMask (w : CommandWord) :
    w &&& 0x300 = (if w.getLsbD 9 then 0x200 else 0x000) ||| (if w.getLsbD 8 then 0x100 else 0x000) := by
  have hmask : (0x300 : CommandWord) = BitVec.twoPow 10 9 ||| BitVec.twoPow 10 8 := rfl
  rw [hmask, BitVec.and_or_distrib_left, BitVec.and_twoPow, BitVec.and_twoPow]
  rfl

/-- A command word fits the row of RESET exactly when bit 9 is set. -/
theorem rowFits_reset (w : CommandWord) : rowFits (tableRow .reset) (.cmd w) = w.getLsbD 9 := by
  have hbit : w &&& 0x200 = if w.getLsbD 9 then 0x200 else 0x000 := BitVec.and_twoPow w 9
  simp only [tableRow, rowFits, hbit]
  cases w.getLsbD 9 <;> rfl

/-- A command word fits the row of WRITE exactly when bit 9 is clear and bit 8 is set. -/
theorem rowFits_write (w : CommandWord) (d : Byte) :
    rowFits (tableRow (.write d)) (.cmd w) = (!w.getLsbD 9 && w.getLsbD 8) := by
  simp only [tableRow, rowFits, and_requestMask]
  cases w.getLsbD 9 <;> cases w.getLsbD 8 <;> rfl

/-- A command word fits the row of IDLE exactly when bits 9 and 8 are clear. -/
theorem rowFits_idle (w : CommandWord) :
    rowFits (tableRow .idle) (.cmd w) = (!w.getLsbD 9 && !w.getLsbD 8) := by
  simp only [tableRow, rowFits, and_requestMask]
  cases w.getLsbD 9 <;> cases w.getLsbD 8 <;> rfl

/-- The row of the command that a word decodes to, by the word's request bits (R42). -/
theorem tableRow_decodeCommand (w : CommandWord) :
    tableRow (decodeCommand w) =
      if w.getLsbD 9 then .cmd 0x200 0x200 else if w.getLsbD 8 then .cmd 0x300 0x100 else .cmd 0x300 0x000 := by
  unfold decodeCommand
  cases w.getLsbD 9 with
  | true => rfl
  | false => cases w.getLsbD 8 <;> rfl

theorem tableRow_queryOf (q : OutputPort) :
    tableRow (queryOf q) = .out (selectField q).mask (selectField q).mask := by
  cases q <;> rfl

/-- Every instruction is one of the three commands or the query of a port. -/
theorem command_or_query (i : Instr) :
    i = .reset ∨ (∃ d, i = .write d) ∨ i = .idle ∨ ∃ q, i = queryOf q := by
  cases i with
  | reset => exact .inl rfl
  | write d => exact .inr (.inl ⟨d, rfl⟩)
  | idle => exact .inr (.inr (.inl rfl))
  | vramAddressIncrement => exact .inr (.inr (.inr ⟨.vramInc, rfl⟩))
  | shouldGenerateVblankNmi => exact .inr (.inr (.inr ⟨.nmiEn, rfl⟩))
  | backgroundPatternAddress => exact .inr (.inr (.inr ⟨.bgPatAddr, rfl⟩))
  | spritePatternAddress => exact .inr (.inr (.inr ⟨.sprPatAddr, rfl⟩))

/-- Settles O29: each command's row is fitted on its own values of the two request bits, and those choose
the row of the decoded command; a query's row has the other format. -/
theorem commandWordFitsExactlyOneRow : Obligations.CommandWordFitsExactlyOneRow := by
  intro w i
  rw [tableRow_decodeCommand]
  rcases command_or_query i with rfl | ⟨d, rfl⟩ | rfl | ⟨q, rfl⟩
  · rw [rowFits_reset]
    cases w.getLsbD 9 <;> cases w.getLsbD 8 <;> simp [tableRow]
  · rw [rowFits_write]
    cases w.getLsbD 9 <;> cases w.getLsbD 8 <;> simp [tableRow]
  · rw [rowFits_idle]
    cases w.getLsbD 9 <;> cases w.getLsbD 8 <;> simp [tableRow]
  · rw [tableRow_queryOf]
    cases w.getLsbD 9 <;> cases w.getLsbD 8 <;> simp [rowFits]

/-- A byte under a field's mask is the mask exactly when the field is set (R43, R52). -/
theorem and_mask_eq_mask_iff (f : Field) (c : Byte) : c &&& f.mask = f.mask ↔ f.get c = true := by
  have hbit : c &&& f.mask = if f.get c then f.mask else 0#8 := by
    rw [f.mask_eq_shift]
    exact BitVec.and_twoPow c f.index
  have hmask : 0#8 ≠ f.mask := by cases f <;> decide
  rw [hbit]
  cases f.get c with
  | true => simp
  | false => simpa using hmask

/-- A select word fits the row of a port's query exactly when the port's select bit is set. -/
theorem rowFits_queryOf (q : OutputPort) (w : Byte) :
    rowFits (tableRow (queryOf q)) (.out w) = (selectField q).get w := by
  rw [tableRow_queryOf, Bool.eq_iff_iff]
  exact beq_iff_eq.trans (and_mask_eq_mask_iff (selectField q) w)

/-- Different ports have different rows. -/
theorem tableRow_queryOf_inj {p q : OutputPort} : tableRow (queryOf p) = tableRow (queryOf q) ↔ p = q := by
  cases p <;> cases q <;> decide

/-- The decoder takes a select word for a port's query only where that port's select bit is set and the
three others are clear (log entry 5). -/
theorem get_of_decodeSelect {w : Byte} {q : OutputPort} (h : decodeSelect w = .ok (queryOf q)) (p : OutputPort) :
    (selectField p).get w = decide (p = q) := by
  unfold decodeSelect at h
  have hport {p' : OutputPort} (hok : Except.ok (ε := DecodeError) (queryOf p') = .ok (queryOf q)) : p' = q :=
    tableRow_queryOf_inj.mp (congrArg tableRow (Except.ok.inj hok))
  split at h
  · obtain rfl := hport (p' := .vramInc) h
    cases p <;> assumption
  · obtain rfl := hport (p' := .sprPatAddr) h
    cases p <;> assumption
  · obtain rfl := hport (p' := .bgPatAddr) h
    cases p <;> assumption
  · obtain rfl := hport (p' := .nmiEn) h
    cases p <;> assumption
  · cases h
  · cases h

/-- Settles O30: of the OUT rows the word fits those whose select bit is set, which in a word that decodes
is one; a command's row has the other format. -/
theorem selectWordFitsExactlyOneRow : Obligations.SelectWordFitsExactlyOneRow := by
  intro w i j h
  obtain ⟨q, rfl⟩ := decodeSelect_ok h
  rcases command_or_query j with rfl | ⟨d, rfl⟩ | rfl | ⟨p, rfl⟩
  · rw [tableRow_queryOf]; simp [tableRow, rowFits]
  · rw [tableRow_queryOf]; simp [tableRow, rowFits]
  · rw [tableRow_queryOf]; simp [tableRow, rowFits]
  · rw [rowFits_queryOf, get_of_decodeSelect h, decide_eq_true_iff, tableRow_queryOf_inj]

/-- A function of a multiplexer's output is chosen by the same bit (R11). -/
theorem apply_mux {α β : Type} (f : α → β) (c : Bool) (a b : α) : f (mux c a b) = if c then f a else f b := by
  cases c <;> rfl

/-- A port's value by its select bit (R43). -/
theorem portValue_eq (q : OutputPort) (c : Byte) :
    portValue q c = if (selectField q).get c then valueWhenSet q else valueWhenClear q := by
  cases q with
  | vramInc => exact apply_mux BitVec.toNat _ _ _
  | nmiEn => exact apply_mux Bool.toNat _ _ _
  | bgPatAddr => exact apply_mux BitVec.toNat _ _ _
  | sprPatAddr => exact apply_mux BitVec.toNat _ _ _

/-- Settles O20: mask and match are the select bit's mask, so they are met exactly where that bit is set. -/
theorem outputRowsSelectTheirValues : Obligations.OutputRowsSelectTheirValues := by
  intro q c
  refine ⟨(selectField q).mask, (selectField q).mask, tableRow_queryOf q, ?_⟩
  simp only [portValue_eq, and_mask_eq_mask_iff]

/-- Settles O24: the decoder's definition, read off on the command words. -/
theorem commandDecodingIsTotal : Obligations.CommandDecodingIsTotal := fun _ => rfl

/-- The levels that a word is the view of make that word again (R40). -/
@[simp] theorem Ports.word_ofWord (w : CommandWord) : (Ports.ofWord w).word = w := by
  refine BitVec.eq_of_getLsbD_eq fun i hi => ?_
  have hcases : i < 8 ∨ i = 8 ∨ i = 9 := by omega
  rcases hcases with hlow | rfl | rfl
  · have hbyte := congrArg (BitVec.getLsbD · i) (Ports.ofWord w).word_din
    simpa [commandData, Ports.ofWord, hlow] using hbyte
  · exact Ports.word_we _
  · exact Ports.word_rst _

/-- The levels read back from a command word are those it was made of (R40). -/
@[simp] theorem Ports.ofWord_word (p : Ports) : Ports.ofWord p.word = p := by
  have hdin : p.word.extractLsb' 0 8 = p.din := p.word_din
  simp only [Ports.ofWord, p.word_rst, p.word_we, hdin]

/-- Settles O25: the word's bits by port, the two round trips, and the byte of a WRITE. -/
theorem commandWordIsThePorts : Obligations.CommandWordIsThePorts :=
  ⟨fun p => ⟨p.word_rst, p.word_we, p.word_din, p.ofWord_word⟩, Ports.word_ofWord,
    fun d => decodeCommand_word ⟨false, true, d⟩⟩

/-- With `rst` high the other levels play no part in the next register (R48). -/
@[simp] theorem blockNext_reset (c : Byte) (we : Bool) (d : Byte) : blockNext c ⟨true, we, d⟩ = 0x00 := rfl

/-- With `rst` and `we` low the data plays no part, and the register is kept (R50). -/
@[simp] theorem blockNext_idle (c d : Byte) : blockNext c ⟨false, false, d⟩ = c := rfl

/-- Settles O26: an edge writes the next register, in which the ignored bits play no part. -/
theorem noIllegalCommandAndIgnoredBitsIgnored : Obligations.NoIllegalCommandAndIgnoredBitsIgnored := by
  refine fun s rest => ⟨fun w => ⟨_, step_of_edge rfl⟩, fun we we' d d' => ?_, fun d d' => ?_, fun _ => rfl⟩
  · rw [step_of_edge rfl, step_of_edge rfl, blockNext_reset, blockNext_reset]
  · rw [step_of_edge rfl, step_of_edge rfl, blockNext_idle, blockNext_idle]

/-- A word of the table is the one that its own stimulus presents (R40, R43). -/
@[simp] theorem codeWord_stimulusOf (c : CodeWord) : (stimulusOf c).codeWord = c := by
  cases c with
  | cmd w => exact congrArg CodeWord.cmd (Ports.word_ofWord w)
  | out w => rfl

/-- A presented word that decodes is what the step runs, in the state with that word taken. -/
theorem step_of_presented {s : State} {c : CodeWord} {rest : List Stimulus} {i : Instr}
    (h : s.pending = stimulusOf c :: rest) (hd : decode c = .ok i) :
    step s = exec i { ctrl := s.ctrl, pending := rest, observed := s.observed } :=
  step_of_decode_ok h ((congrArg decode (codeWord_stimulusOf c)).trans hd)

/-- Settles O27: the instruction is the one the word alone decodes to. -/
theorem decodingDoesNotDependOnTheState : Obligations.DecodingDoesNotDependOnTheState :=
  fun w => ⟨decodeCommand w, fun _ _ => step_of_presented (c := .cmd w) rfl rfl⟩

/-- An opcode-table word gives an instruction only through a code word that decodes to it. -/
theorem decodeTableWord_eq_some {nbits w : Nat} {i : Instr} (h : decodeTableWord nbits w = some i) :
    ∃ c, codeWordOfTable nbits w = some c ∧ decode c = .ok i := by
  unfold decodeTableWord at h
  split at h
  next c hc =>
    split at h
    next j hd => cases h; exact ⟨c, hc, hd⟩
    next => cases h
  next => cases h

/-- Placing an opcode-table word presents the code word it stands for (log entries 2 and 6). -/
theorem withFetchWord_of_codeWord {nbits w : Nat} {c : CodeWord} (h : codeWordOfTable nbits w = some c) (s : State) :
    s.withFetchWord nbits w = s.present (stimulusOf c) := by
  simp only [State.withFetchWord, State.presentTableWord, h]

/-- Settles O33: the placed word is presented first, and the step takes it off again. -/
theorem placedTableWordIsRunNext : Obligations.PlacedTableWordIsRunNext := by
  intro s nbits w i h
  obtain ⟨c, hc, hd⟩ := decodeTableWord_eq_some h
  rw [withFetchWord_of_codeWord hc]
  exact step_of_presented (s.present_pending _) hd

/-- Settles O31: ten closed decodings, each evaluated. -/
theorem sampleWordsDecode : Obligations.SampleWordsDecode := by
  unfold Obligations.SampleWordsDecode
  decide

/-- The byte of a WRITE with its operand in range stands in the word unmodified (R46). -/
theorem lineWords_write {imm : Nat} (h : imm ≤ 255) :
    lineWords (.write imm) = [0x100 ||| (BitVec.ofNat 8 imm).setWidth 10] := by
  have hbyte : (BitVec.ofNat 8 imm).setWidth 10 = BitVec.ofNat 10 imm :=
    BitVec.setWidth_ofNat_of_le_of_lt (by decide) (Nat.lt_succ_of_le h)
  rw [lineWords, hbyte]

/-- A WRITE with its operand in range assembles to one word (R46). -/
theorem assembleLine_write {imm : Nat} (h : imm ≤ 255) :
    assembleLine (.write imm) = some [0x100 ||| (BitVec.ofNat 8 imm).setWidth 10] := by
  rw [← lineWords_write h]
  exact assembleLine_of_wellFormed (decide_eq_true h)

/-- The word of `WRITE d` as a number (R40, R46). -/
theorem writeWord_toNat (d : Byte) : ((0x100 : CommandWord) ||| d.setWidth 10).toNat = 0x100 + d.toNat := by
  rw [BitVec.toNat_or, BitVec.toNat_setWidth_of_le (by decide)]
  exact (Nat.two_pow_add_eq_or_of_lt d.isLt 1).symm

/-- Settles O42: each operand in range gives its words, each out of range is refused. -/
theorem assemblerWordsAndRanges : Obligations.AssemblerWordsAndRanges := by
  refine ⟨rfl, rfl, fun imm h => ?_, fun imm h => ?_, fun w h => ?_, fun w h => ?_, fun _ _ => rfl⟩
  · refine ⟨_, assembleLine_write h, decodeCommand_writeWord _, ?_⟩
    rw [writeWord_toNat, BitVec.toNat_ofNat, Nat.mod_eq_of_lt (Nat.lt_succ_of_le h)]
  · exact assembleLine_of_illFormed (decide_eq_false (Nat.not_le_of_lt h))
  · exact ⟨_, assembleLine_of_wellFormed (decide_eq_true h), Nat.mod_eq_of_lt (Nat.lt_succ_of_le h)⟩
  · exact assembleLine_of_illFormed (decide_eq_false (Nat.not_le_of_lt h))

/-- Lines of IDLE assemble to as many IDLE words (R47). -/
theorem assembleProgram_replicate_idle (n : Nat) :
    assembleProgram (List.replicate n .idle) = some (List.replicate n 0x000) := by
  induction n with
  | zero => rfl
  | succ n ih => exact assembleProgram_cons (ws := [0x000]) rfl ih

/-- The byte of named fields has a field set exactly when it is named (R47). -/
theorem get_fieldsByte (f : Field) (fs : List Field) : f.get (fieldsByte fs) = true ↔ f ∈ fs := by
  induction fs with
  | nil => simp [fieldsByte]
  | cons g gs ih => simp [get_fieldsByte_cons, ih]

/-- Settles O43: IDLE lines by induction on their number, WRITEF by the byte of the named fields. -/
theorem pseudoInstructionsExpand : Obligations.PseudoInstructionsExpand := by
  refine ⟨fun n h => ?_, rfl, rfl, fun fs => ?_⟩
  · rw [assembleProgram_replicate_idle]
    exact assembleLine_of_wellFormed (decide_eq_true h)
  · have hbyte : (fieldsByte fs).toNat ≤ 255 := Nat.le_of_lt_succ (fieldsByte fs).isLt
    refine ⟨_, fieldsByte fs, rfl, decodeCommand_writeWord _, ?_, fun f => get_fieldsByte f fs⟩
    rw [assembleLine_write hbyte, BitVec.ofNat_toNat, BitVec.setWidth_eq]

end Sys2Proof.Machine

namespace Sys2Proof.Machine

/-! ### Register write: the three commands, one edge each and in sequence -/

/-- One more edge at the end of a sequence acts on what the sequence before it leaves. -/
theorem lastRequested_concat (c : Byte) (ps : List Ports) (p : Ports) :
    lastRequested c (ps ++ [p]) = blockNext (lastRequested c ps) p := by
  unfold lastRequested
  rw [List.reverse_concat]
  obtain ⟨rst, we, din⟩ := p
  cases rst with
  | true => rfl
  | false =>
    cases we with
    | true => rfl
    | false => rfl

/-- The next-register function folded over edges leaves what the last request asks for (R51). -/
theorem foldl_blockNext_eq_lastRequested (c : Byte) (ps : List Ports) :
    ps.foldl blockNext c = lastRequested c ps := by
  induction ps using List.reverseRecOn with
  | nil => rfl
  | append_singleton ps p ih => rw [List.foldl_concat, ih, lastRequested_concat]

/-- A run over a list of edges leaves what the last request among them asks for (R51). -/
theorem run_edges_lastRequested (ps : List Ports) (s : State) (rest : List Stimulus) :
    Host.Core.run Sys2Proof.core ps.length { s with pending := ps.map Stimulus.edge ++ rest } =
      .next { s with ctrl := lastRequested s.ctrl ps, pending := rest } := by
  rw [← foldl_blockNext_eq_lastRequested]
  exact run_edges ps s.ctrl s.observed rest

/-- With a WRITE as the last edge its byte is what is left, whatever the edges before it were (R51). -/
theorem lastRequested_concat_write (c : Byte) (ps : List Ports) (d : Byte) :
    lastRequested c (ps ++ [⟨false, true, d⟩]) = d := by
  rw [lastRequested_concat, blockNext_write]

/-- Settles O7: the run leaves what the last request asks for; that is the last WRITE's byte after the
edge of another WRITE as after none. -/
theorem overwriteLaw : Obligations.OverwriteLaw := by
  refine ⟨fun s a b rest => ⟨?_, ?_⟩, run_edges_lastRequested⟩
  · have hrun := run_edges_lastRequested ([⟨false, true, a⟩] ++ [⟨false, true, b⟩]) s rest
    rwa [lastRequested_concat_write] at hrun
  · have hrun := run_edges_lastRequested ([] ++ [⟨false, true, b⟩]) s rest
    rwa [lastRequested_concat_write] at hrun

/-- IDLE answers the state it is given (R50). -/
theorem exec_idle (s : State) : exec .idle s = .next s :=
  congrArg Host.Outcome.next s.writeCtrl_self

/-- IDLE edges, whatever their data, keep the register under the next-register function (R50). -/
theorem foldl_blockNext_idle (c : Byte) (ds : List Byte) :
    (ds.map fun d => (⟨false, false, d⟩ : Ports)).foldl blockNext c = c := by
  rw [List.foldl_map]
  exact List.foldl_fixed' (blockNext_idle c) ds

/-- A run over IDLE edges consumes them and changes nothing else (R50). -/
theorem run_idle_edges (ds : List Byte) (s : State) (rest : List Stimulus) :
    Host.Core.run Sys2Proof.core ds.length
        { s with pending := (ds.map fun d => Stimulus.edge ⟨false, false, d⟩) ++ rest } =
      .next { s with pending := rest } := by
  have hrun := run_edges (ds.map fun d => ⟨false, false, d⟩) s.ctrl s.observed rest
  rwa [List.length_map, List.map_map, foldl_blockNext_idle] at hrun

/-- Settles O6: the instruction, one edge of it, and the run over any number of them. -/
theorem idleEdgesKeepTheRegister : Obligations.IdleEdgesKeepTheRegister := by
  refine ⟨exec_idle, fun s d rest => ?_, run_idle_edges⟩
  rw [step_of_edge rfl, blockNext_idle]

/-- RESET answers the register write of 0x00, from every state (R48). -/
theorem exec_reset (s : State) : exec .reset s = .next (s.writeCtrl 0x00) := rfl

/-- The outputs of the cleared register (R69). -/
theorem outputsOf_zero :
    outputsOf 0x00 = { vramInc := 1, nmiEn := false, bgPatAddr := 0x0000, sprPatAddr := 0x0000 } := rfl

/-- Settles O4: the rule of an edge, whose next register under `rst` is 0x00, and the meaning of RESET. -/
theorem resetEdgeClearsWhateverTheOtherInputs : Obligations.ResetEdgeClearsWhateverTheOtherInputs := by
  refine fun s we d rest => ⟨?_, fun f => f.get_zero, outputsOf_zero, exec_reset s⟩
  rw [step_of_edge rfl, blockNext_reset]

/-- Settles O5: WRITE is the register write of its byte, which RESET is with 0x00 and which changes nothing
with the byte held; the outputs are those of the stored register. -/
theorem writeReplacesTheWholeRegister : Obligations.WriteReplacesTheWholeRegister := by
  refine fun s d => ⟨exec_write d s, fun t h f => ?_, ?_, ?_, fun rest => ⟨State.outputs_eq _, ?_⟩⟩
  · rw [exec_write] at h
    cases h
    rfl
  · rw [exec_write, exec_reset]
  · rw [exec_write, State.writeCtrl_self]
  · rw [step_of_edge rfl, blockNext_write]

end Sys2Proof.Machine

namespace Sys2Proof.Machine

/-! ### Output decode: the values of the ports, and the record of what was read -/

/-- A value just read does not spoil a legal record: its port can have it (R53 to R56). -/
theorem all_legal_observe_cons (q : OutputPort) (c : Byte) (os : List Observation) :
    (observe q c :: os).all Observation.legal = os.all Observation.legal := by
  rw [List.all_cons, observe_legal, Bool.true_and]

/-- Settles O40: an edge keeps the record, and a read adds a value its port can have. -/
theorem stepKeepsObservedValuesLegal : Obligations.StepKeepsObservedValuesLegal := by
  intro s t hlegal h
  rcases step_cases h with ⟨p, rest, -, rfl⟩ | ⟨sel, q, rest, -, -, rfl⟩
  · exact hlegal
  · exact (all_legal_observe_cons q s.ctrl s.observed).trans hlegal

/-- Settles O39: at power-on the record is empty. -/
theorem observedValuesLegalAtReset : Obligations.ObservedValuesLegalAtReset :=
  congrArg (List.all · Observation.legal) State.reset_observed

/-- A field is set exactly when its bit is non-zero in the register (R52). -/
theorem get_iff_and_shift_ne_zero (f : Field) (c : Byte) : f.get c = true ↔ c &&& (1#8 <<< f.index) ≠ 0#8 := by
  have hbit : c &&& (1#8 <<< f.index) = if f.get c then 1#8 <<< f.index else 0#8 := BitVec.and_twoPow c f.index
  have hshift : 1#8 <<< f.index ≠ 0#8 := by cases f <;> decide
  rw [hbit]
  cases f.get c with
  | true => exact iff_of_true rfl hshift
  | false => exact iff_of_false Bool.false_ne_true (not_not_intro rfl)

/-- Registers that agree on the four select bits drive the same outputs. -/
theorem outputsOf_eq_of_get_eq {c c' : Byte} (h : ∀ q, (selectField q).get c = (selectField q).get c') :
    outputsOf c = outputsOf c' :=
  outputsOf_eq_of_observe_eq fun q => observe_eq_of_get_eq (h q)

/-- Settles O13: the field extractor's definition at each index, its mask form, and outputs that see the
select bits only. -/
theorem fieldsAreTheBitsOfTheRegister : Obligations.FieldsAreTheBitsOfTheRegister := by
  refine ⟨fun c => ⟨rfl, rfl, rfl, rfl, rfl, rfl, rfl, rfl⟩, get_iff_and_shift_ne_zero,
    fun c c' h2 h3 h4 h7 => outputsOf_eq_of_get_eq fun q => ?_⟩
  cases q with
  | vramInc => exact h2
  | nmiEn => exact h7
  | bgPatAddr => exact h4
  | sprPatAddr => exact h3

/-- Settles O19: what a consumer reads depends on the port's select bit alone. -/
theorem eachOutputDependsOnItsSelectBitOnly : Obligations.EachOutputDependsOnItsSelectBitOnly :=
  fun _ _ =>
    ⟨fun h => Observation.vramInc.inj (observe_eq_of_get_eq (q := .vramInc) h),
      fun h => Observation.nmiEn.inj (observe_eq_of_get_eq (q := .nmiEn) h),
      fun h => Observation.bgPatAddr.inj (observe_eq_of_get_eq (q := .bgPatAddr) h),
      fun h => Observation.sprPatAddr.inj (observe_eq_of_get_eq (q := .sprPatAddr) h)⟩

/-- The value of `vram_inc` by its select bit (R53). -/
theorem vramInc_eq (c : Byte) : vramInc c = if c.getLsbD 2 then 32 else 1 := apply_mux id _ _ _

/-- The value of `nmi_en` (R54). -/
theorem nmiEn_eq (c : Byte) : nmiEn c = c.getLsbD 7 := by
  change mux (c.getLsbD 7) true false = _
  cases c.getLsbD 7 <;> rfl

/-- The value of `bg_pat_addr` by its select bit (R55). -/
theorem bgPatAddr_eq (c : Byte) : bgPatAddr c = if c.getLsbD 4 then 0x1000 else 0x0000 := apply_mux id _ _ _

/-- The value of `spr_pat_addr` by its select bit (R56). -/
theorem sprPatAddr_eq (c : Byte) : sprPatAddr c = if c.getLsbD 3 then 0x1000 else 0x0000 := apply_mux id _ _ _

/-- Bits 15:13 and 11:0 of a pattern table address are 0 (R55, R56). -/
theorem patternAddr_other_bits_zero (b : Bool) :
    mux b patternAddrWhenSet patternAddrWhenClear &&& 0xEFFF = 0x0000 := by
  cases b <;> rfl

/-- The query of a port completes from every state and keeps the register (R34). -/
theorem query_keeps_ctrl (q : OutputPort) (s : State) : ∃ t, exec (queryOf q) s = .next t ∧ t.ctrl = s.ctrl :=
  ⟨s.readPort q, exec_queryOf q s, s.readPort_ctrl q⟩

/-- Settles O15: the port's value by its bit, one of the multiplexer's two inputs, and the rule of a query. -/
theorem vramIncrementBySelectBit : Obligations.VramIncrementBySelectBit :=
  ⟨vramInc_eq, fun _ => (mux_cases _ vramIncWhenSet vramIncWhenClear).symm,
    fun s => congrArg Outputs.vramInc s.outputs_eq, query_keeps_ctrl .vramInc⟩

/-- Settles O16: the port's value and the rule of a query. -/
theorem nmiEnableIsBitSeven : Obligations.NmiEnableIsBitSeven :=
  ⟨nmiEn_eq, fun s => congrArg Outputs.nmiEn s.outputs_eq, query_keeps_ctrl .nmiEn⟩

/-- Settles O17: the port's value by its bit, its other bits, and the rule of a query. -/
theorem backgroundPatternAddressBySelectBit : Obligations.BackgroundPatternAddressBySelectBit :=
  ⟨bgPatAddr_eq, fun _ => patternAddr_other_bits_zero _,
    fun s => congrArg Outputs.bgPatAddr s.outputs_eq, query_keeps_ctrl .bgPatAddr⟩

/-- The two pattern table addresses take all four combinations (R56). -/
theorem patternAddrs_independent (x y : Bool) : ∃ c : Byte,
    (bgPatAddr c = if x then 0x1000 else 0x0000) ∧ (sprPatAddr c = if y then 0x1000 else 0x0000) := by
  refine ⟨mux x Field.bgPatternAddr.mask 0x00 ||| mux y Field.spritePatternAddr.mask 0x00, ?_⟩
  cases x <;> cases y <;> decide

/-- Settles O18: the port's value by its bit, its other bits, a register for each combination, and the rule
of a query. -/
theorem spritePatternAddressBySelectBit : Obligations.SpritePatternAddressBySelectBit :=
  ⟨sprPatAddr_eq, fun _ => patternAddr_other_bits_zero _, patternAddrs_independent,
    fun s => congrArg Outputs.sprPatAddr s.outputs_eq, query_keeps_ctrl .sprPatAddr⟩

/-- Settles O21: the outputs are those of the stored register, which is `d` after the edge of WRITE d. -/
theorem writeToOutputLatency : Obligations.WriteToOutputLatency := by
  refine ⟨fun _ _ => State.outputs_eq _, fun s d rest => ⟨State.outputs_eq _, _, step_of_edge rfl, ?_⟩⟩
  rw [State.outputs_eq, blockNext_write]

/-- A query adds what its consumer reads to the record and changes nothing else (log entry 4). -/
theorem exec_queryOf_of_observe {q : OutputPort} {s : State} {o : Observation} (h : observe q s.ctrl = o) :
    exec (queryOf q) s = .next { s with observed := o :: s.observed } := by
  rw [exec_queryOf, State.readPort, h]

/-- Settles O23: each query records what its port's consumer reads, which is the port's value by its bit. -/
theorem queriesRecordTheirPortsValue : Obligations.QueriesRecordTheirPortsValue :=
  fun s =>
    ⟨exec_queryOf_of_observe (q := .vramInc) (congrArg Observation.vramInc (vramInc_eq s.ctrl)),
      exec_queryOf_of_observe (q := .nmiEn) (congrArg Observation.nmiEn (nmiEn_eq s.ctrl)),
      exec_queryOf_of_observe (q := .bgPatAddr) (congrArg Observation.bgPatAddr (bgPatAddr_eq s.ctrl)),
      exec_queryOf_of_observe (q := .sprPatAddr) (congrArg Observation.sprPatAddr (sprPatAddr_eq s.ctrl))⟩

end Sys2Proof.Machine

namespace Sys2Proof.Machine

/-! ### Exceptions: every command and query is total, and the step refuses by name -/

/-- Every instruction answers a next state, from every state (R59). -/
theorem exec_total (i : Instr) (s : State) : ∃ t, exec i s = .next t := by
  rcases command_or_query i with rfl | ⟨d, rfl⟩ | rfl | ⟨q, rfl⟩
  · exact ⟨_, exec_reset s⟩
  · exact ⟨_, exec_write d s⟩
  · exact ⟨_, exec_idle s⟩
  · exact ⟨_, exec_queryOf q s⟩

/-- The decoder finds no port in a select word exactly when no port's select bit is set (log entry 5). -/
theorem decodeSelect_eq_selectsNoPort_iff (w : Byte) :
    decodeSelect w = .error .selectsNoPort ↔ ∀ q, (selectField q).get w = false := by
  constructor
  · intro h q
    unfold decodeSelect at h
    split at h
    · cases h
    · cases h
    · cases h
    · cases h
    · cases q <;> assumption
    · cases h
  · intro h
    have hInc : w.getLsbD 2 = false := h .vramInc
    have hSpr : w.getLsbD 3 = false := h .sprPatAddr
    have hBg : w.getLsbD 4 = false := h .bgPatAddr
    have hNmi : w.getLsbD 7 = false := h .nmiEn
    simp only [decodeSelect, hInc, hSpr, hBg, hNmi]

/-- A word with none of the decoded bits sets no port's select bit. -/
theorem get_eq_false_of_no_decoded_bits {w : Byte} (h : w &&& decodedBits = 0x00) (q : OutputPort) :
    (selectField q).get w = false := by
  have hagree : agreeOnDecodedBits w 0x00 = true := beq_iff_eq.mpr h
  exact (get_eq_of_agree hagree q).trans (Field.get_zero _)

/-- With the select bits of two ports set the decoder finds several: one port alone, or none, would leave
one of the two bits clear (log entry 5). -/
theorem decodeSelect_of_two_ports {w : Byte} {p q : OutputPort} (hne : p ≠ q)
    (hp : (selectField p).get w = true) (hq : (selectField q).get w = true) :
    decodeSelect w = .error .selectsSeveralPorts := by
  cases hd : decodeSelect w with
  | ok i =>
    obtain ⟨r, rfl⟩ := decodeSelect_ok hd
    rw [get_of_decodeSelect hd, decide_eq_true_iff] at hp hq
    exact absurd (hp.trans hq.symm) hne
  | error e =>
    cases e with
    | selectsNoPort =>
      have hclear := (decodeSelect_eq_selectsNoPort_iff w).mp hd p
      exact absurd hp (ne_true_of_eq_false hclear)
    | selectsSeveralPorts => rfl

/-- A stimulus is legal exactly when its word decodes. -/
theorem Stimulus.legal_iff (e : Stimulus) : e.legal = true ↔ ∃ i, decode e.codeWord = .ok i := by
  unfold Stimulus.legal
  cases decode e.codeWord with
  | ok i => simp
  | error r => simp

/-- The step answers a next state exactly when something legal is pending. -/
theorem step_next_iff (s : State) :
    (∃ t, step s = .next t) ↔ ∃ e rest, s.pending = e :: rest ∧ e.legal = true := by
  constructor
  · rintro ⟨t, h⟩
    rcases step_cases h with ⟨p, rest, hp, -⟩ | ⟨sel, q, rest, hp, hd, -⟩
    · exact ⟨_, rest, hp, rfl⟩
    · exact ⟨_, rest, hp, (Stimulus.legal_iff _).mpr ⟨_, hd⟩⟩
  · rintro ⟨e, rest, hp, hlegal⟩
    obtain ⟨i, hd⟩ := e.legal_iff.mp hlegal
    rw [step_of_decode_ok hp hd]
    exact exec_total i _

/-- Settles O34: a word that the decoder rejects is refused under the decoder's reason, and one that it
takes is run by an instruction that is total. -/
theorem stepRefusesOnlyWhatIsNotGiven : Obligations.StepRefusesOnlyWhatIsNotGiven := by
  refine ⟨fun _ => step_of_nothing_pending, fun s sel rest h => ?_, fun s sel rest h => ?_, step_next_iff⟩
  · have hnone := (decodeSelect_eq_selectsNoPort_iff sel).mpr (get_eq_false_of_no_decoded_bits h)
    exact step_of_decode_error (e := .sample sel) rfl hnone
  · obtain ⟨p, q, hne, hp, hq⟩ := h
    exact step_of_decode_error (e := .sample sel) rfl (decodeSelect_of_two_ports hne hp hq)

/-- Settles O35: the rule of an edge, the totality of every instruction, and a type of faults that has no
member. -/
theorem commandsAndOutputsAreTotal : Obligations.CommandsAndOutputsAreTotal :=
  ⟨fun _ _ _ => ⟨_, step_of_edge rfl⟩, fun s i => exec_total i s, fun _ r => nomatch r⟩

/-- Settles O22: the output is bit 7 of the register that WRITE and RESET leave. -/
theorem nmiEnabledByWriteMaskedByWriteOrReset : Obligations.NmiEnabledByWriteMaskedByWriteOrReset :=
  ⟨fun s d => ⟨_, exec_write d s, nmiEn_eq d⟩, fun s => ⟨_, exec_reset s, congrArg Outputs.nmiEn outputsOf_zero⟩⟩

end Sys2Proof.Machine

namespace Sys2Proof.Machine

/-! ### Reset and hazards: runs without a stop, and the first edge after reset -/

/-- A step that answers a next state has taken the first stimulus and no other (R73, log entry 1). -/
theorem step_pending {s t : State} (h : step s = .next t) : t.pending = s.pending.tail := by
  rcases step_cases h with ⟨p, rest, hp, rfl⟩ | ⟨sel, q, rest, hp, -, rfl⟩
  · exact (congrArg List.tail hp).symm
  · exact (congrArg List.tail hp).symm

/-- A run that answers a next state has taken one stimulus for each of its steps. -/
theorem run_pending {k : Nat} {s t : State} (h : Host.Core.run Sys2Proof.core k s = .next t) :
    t.pending = s.pending.drop k := by
  induction k generalizing s with
  | zero => cases h; rfl
  | succ k ih =>
    obtain ⟨u, hu, hrun⟩ := run_succ_cases h
    rw [ih hrun, step_pending hu, List.drop_tail]

/-- Everything pending is legal exactly when each stimulus is. -/
theorem State.wellDriven_iff (s : State) : s.wellDriven = true ↔ ∀ e ∈ s.pending, e.legal = true :=
  List.all_eq_true

/-- A step keeps the remaining stimuli legal: it adds none. -/
theorem step_keeps_wellDriven {s t : State} (hs : s.wellDriven = true) (h : step s = .next t) :
    t.wellDriven = true := by
  rw [State.wellDriven_iff] at hs ⊢
  rw [step_pending h]
  exact fun e he => hs e (List.mem_of_mem_tail he)

/-- With legal stimuli pending, and at least one of them, the step answers a next state. -/
theorem step_next_of_wellDriven {s : State} (hs : s.wellDriven = true) (hne : 0 < s.pending.length) :
    ∃ t, step s = .next t := by
  obtain ⟨e, rest, hp⟩ := List.exists_cons_of_length_pos hne
  have hlegal : e.legal = true := s.wellDriven_iff.mp hs e (hp ▸ List.mem_cons_self)
  exact (step_next_iff s).mpr ⟨e, rest, hp, hlegal⟩

/-- A step that answers a next state, before a safe run, makes a safe run one step longer. -/
theorem safeRun_succ {k : Nat} {s u : State} (hu : step s = .next u) (h : SafeRun k u) : SafeRun (k + 1) s := by
  obtain ⟨t, ht⟩ := h
  exact ⟨t, (run_succ_of_step hu k).trans ht⟩

/-- Legal stimuli are run through one step each: legality is kept, and one fewer is pending after each step. -/
theorem safeRun_of_wellDriven {k : Nat} {s : State} (hs : s.wellDriven = true) (hk : k ≤ s.pending.length) :
    SafeRun k s := by
  induction k generalizing s with
  | zero => exact ⟨s, run_zero s⟩
  | succ k ih =>
    obtain ⟨u, hu⟩ := step_next_of_wellDriven hs (Nat.zero_lt_of_lt hk)
    have hlength : k ≤ u.pending.length := by
      rw [step_pending hu, List.length_tail]
      exact Nat.le_sub_one_of_lt hk
    exact safeRun_succ hu (ih (step_keeps_wellDriven hs hu) hlength)

/-- Settles O36: the run answers, by induction on its length, and any run takes one stimulus a step. -/
theorem legalStimuliRunWithoutAStop : Obligations.LegalStimuliRunWithoutAStop :=
  fun _ _ hs hk => ⟨safeRun_of_wellDriven hs hk, fun _ => run_pending⟩

/-- At power-on the outputs are those of the cleared register (R69). -/
theorem reset_outputs :
    State.reset.outputs = { vramInc := 1, nmiEn := false, bgPatAddr := 0x0000, sprPatAddr := 0x0000 } := by
  rw [State.outputs_eq, State.reset_ctrl, outputsOf_zero]

/-- Settles O2: at power-on as after RESET the register is 0x00. -/
theorem outputsAfterPowerOnAndReset : Obligations.OutputsAfterPowerOnAndReset := by
  refine ⟨reset_outputs, fun s => ⟨_, exec_reset s, ?_⟩⟩
  rw [State.outputs_eq, State.writeCtrl_ctrl, outputsOf_zero]

/-- Settles O3: the rule of an edge at power-on; after a RESET edge the WRITE is the last request, whose
byte is left; the outputs of the cleared register. -/
theorem firstEdgeAfterResetTakesAWrite : Obligations.FirstEdgeAfterResetTakesAWrite := by
  refine ⟨fun d rest => ?_, fun s we x d rest => ?_, congrArg Outputs.nmiEn reset_outputs⟩
  · rw [step_of_edge rfl, blockNext_write]
  · have hrun := run_edges_lastRequested ([⟨true, we, x⟩] ++ [⟨false, true, d⟩]) s rest
    rwa [lastRequested_concat_write] at hrun

end Sys2Proof.Machine
